-- ==== Sys2Proof/Word.lean ====
section
/-! DEFINITION. The word and byte types (spec/00_scope.md R5: XLEN = ILEN = 32; spec/10_state.md R22: a memory cell
is 8 bits). Bit 0 is the least significant bit (R8). -/

namespace Sys2Proof

/-- A 32-bit value: a register, an address, an instruction word, an operand word. -/
abbrev Word := BitVec 32

/-- One memory cell. -/
abbrev Byte := BitVec 8

end Sys2Proof
end

