-- ==== Sys2Proof/Config.lean ====
section
/-! DEFINITION. The parameters of the core (spec/00_scope.md R5) at the values `State.reset` takes. The general reset,
with MEM_SIZE, IMAGE and INITIAL_PC as arguments, is `Machine.launch` (Machine/Reset.lean). The spec leaves no value
free, so there is no opaque constant here. -/

namespace Sys2Proof.Config

/-- MEM_SIZE: R5's default, 134,217,728 bytes. -/
def memSize : Nat := 0x08000000

/-- The bounds R5 sets for MEM_SIZE. -/
def memSizeMin : Nat := 8
def memSizeMax : Nat := 2 ^ 32

/-- INITIAL_PC: R5 gives no default. DESIGN CHOICE (log 1): 0, where IMAGE begins; spec/95_test_vectors.md starts
its vectors so too. -/
def initialPc : Word := 0

/-- What an address that memory does not list reads as: R140, memory outside IMAGE is 0 after reset. -/
def unlistedByte : Byte := 0

end Sys2Proof.Config
end

