-- ==== Sys2Proof/Syntax.lean ====
section
/-! DEFINITION. The instructions as data: one constructor of `Instr` per row of spec/opcode_table.json. The operand
word of Move Immediate, Lea and Push Immediate is no part of an instruction: it is read from memory by `execute`, not
by `decode` (spec/30_encoding.md R61). -/

namespace Sys2Proof

/-- A register, by its ordinal (spec/10_state.md R11): 0-15 are D0-D15, 16-31 are A0-A15. -/
abbrev Reg := Fin 32

/-- `Dk` is ordinal k (R11). -/
def dReg (k : Fin 16) : Reg := ⟨k.val, by omega⟩

/-- `Ak` is ordinal 16 + k (R11). -/
def aReg (k : Fin 16) : Reg := ⟨16 + k.val, by omega⟩

/-- The four operations (spec/00_scope.md R2). -/
inductive Opcode where
  | move | lea | push | pop
deriving DecidableEq, Repr

/-- The eight addressing modes, in the order of their codes 0 to 7 (spec/30_encoding.md R54). -/
inductive Mode where
  | atomic | immediate | memoryDest | memorySrc | memoryDestInc | memorySrcInc | memoryDestDec | memorySrcDec
deriving DecidableEq, Repr

/-- OperandSize (spec/10_state.md R18): three values, 1, 2 or 4 bytes. -/
inductive OperandSize where
  | byte | word | dword
deriving DecidableEq, Repr

/-- The operand fields every decoded instruction carries, used or not (spec/30_encoding.md R57, R65). -/
structure Fields where
  dest : Reg
  src : Reg
  /-- Carried, read by no rule of `execute` (R56). -/
  offset : BitVec 6
  size : OperandSize
deriving DecidableEq, Repr

/-- One constructor per row of the opcode table (spec/30_encoding.md R59). Lea is one row for all eight modes, so it
carries the mode its word had. -/
inductive Instr where
  | moveAtomic (f : Fields)
  | moveImmediate (f : Fields)
  | moveMemoryDest (f : Fields)
  | moveMemorySrc (f : Fields)
  | moveMemoryDestInc (f : Fields)
  | moveMemorySrcInc (f : Fields)
  | moveMemoryDestDec (f : Fields)
  | moveMemorySrcDec (f : Fields)
  | lea (m : Mode) (f : Fields)
  | pushAtomic (f : Fields)
  | pushImmediate (f : Fields)
  | pushMemoryDest (f : Fields)
  | pushMemorySrc (f : Fields)
  | pushMemoryDestInc (f : Fields)
  | pushMemorySrcInc (f : Fields)
  | pushMemoryDestDec (f : Fields)
  | pushMemorySrcDec (f : Fields)
  | popAtomic (f : Fields)
  | popImmediate (f : Fields)
  | popMemoryDest (f : Fields)
  | popMemorySrc (f : Fields)
  | popMemoryDestInc (f : Fields)
  | popMemorySrcInc (f : Fields)
  | popMemoryDestDec (f : Fields)
  | popMemorySrcDec (f : Fields)
deriving DecidableEq, Repr

/-- The operation of an instruction. -/
def Instr.opcode : Instr → Opcode
  | .moveAtomic _ | .moveImmediate _ | .moveMemoryDest _ | .moveMemorySrc _
  | .moveMemoryDestInc _ | .moveMemorySrcInc _ | .moveMemoryDestDec _ | .moveMemorySrcDec _ => .move
  | .lea _ _ => .lea
  | .pushAtomic _ | .pushImmediate _ | .pushMemoryDest _ | .pushMemorySrc _
  | .pushMemoryDestInc _ | .pushMemorySrcInc _ | .pushMemoryDestDec _ | .pushMemorySrcDec _ => .push
  | .popAtomic _ | .popImmediate _ | .popMemoryDest _ | .popMemorySrc _
  | .popMemoryDestInc _ | .popMemorySrcInc _ | .popMemoryDestDec _ | .popMemorySrcDec _ => .pop

/-- The addressing mode of an instruction. -/
def Instr.mode : Instr → Mode
  | .moveAtomic _ | .pushAtomic _ | .popAtomic _ => .atomic
  | .moveImmediate _ | .pushImmediate _ | .popImmediate _ => .immediate
  | .moveMemoryDest _ | .pushMemoryDest _ | .popMemoryDest _ => .memoryDest
  | .moveMemorySrc _ | .pushMemorySrc _ | .popMemorySrc _ => .memorySrc
  | .moveMemoryDestInc _ | .pushMemoryDestInc _ | .popMemoryDestInc _ => .memoryDestInc
  | .moveMemorySrcInc _ | .pushMemorySrcInc _ | .popMemorySrcInc _ => .memorySrcInc
  | .moveMemoryDestDec _ | .pushMemoryDestDec _ | .popMemoryDestDec _ => .memoryDestDec
  | .moveMemorySrcDec _ | .pushMemorySrcDec _ | .popMemorySrcDec _ => .memorySrcDec
  | .lea m _ => m

/-- The operand fields of an instruction. -/
def Instr.fields : Instr → Fields
  | .moveAtomic f | .moveImmediate f | .moveMemoryDest f | .moveMemorySrc f
  | .moveMemoryDestInc f | .moveMemorySrcInc f | .moveMemoryDestDec f | .moveMemorySrcDec f
  | .lea _ f
  | .pushAtomic f | .pushImmediate f | .pushMemoryDest f | .pushMemorySrc f
  | .pushMemoryDestInc f | .pushMemorySrcInc f | .pushMemoryDestDec f | .pushMemorySrcDec f
  | .popAtomic f | .popImmediate f | .popMemoryDest f | .popMemorySrc f
  | .popMemoryDestInc f | .popMemorySrcInc f | .popMemoryDestDec f | .popMemorySrcDec f => f

/-- What the decoder answers (spec/30_encoding.md R57): an instruction, or the Unrecognized marker with the raw word
(R60). -/
inductive Decoded where
  | instr (i : Instr)
  | unrecognized (w : Word)
deriving DecidableEq, Repr

end Sys2Proof
end

