-- ==== Sys2Proof/WellFormed.lean ====
section
/-! DEFINITION. Checks on instructions. The types already bound every field (spec/30_encoding.md R55: a 5-bit register
field is always a valid ordinal; R54, R58: no mode and no size is reserved), so every `Instr` is a value the decoder
can produce and no claim about decoding or running needs a premise from here. What the spec still tells apart is
checked here: an instruction that R63 does not list as illegal or without a meaning (`wellFormed`), and the canonical
spelling of R64 (`canonical`). -/

namespace Sys2Proof

/-- R63's first check: Lea's destination is an address register, ordinal 16 or more (R90). -/
def Instr.destAllowed : Instr → Bool
  | .lea _ f => 16 ≤ f.dest.val
  | _ => true

/-- R63's second check: Push has a meaning for modes 0 and 1, Pop for mode 0, Move and Lea for all (R98, R100, R101). -/
def Instr.modeAllowed (i : Instr) : Bool :=
  match i.opcode, i.mode with
  | .move, _ => true
  | .lea, _ => true
  | .push, .atomic => true
  | .push, .immediate => true
  | .push, _ => false
  | .pop, .atomic => true
  | .pop, _ => false

/-- An instruction to which the spec gives an effect of its own: neither illegal nor unimplemented in R63's table.
One that is not well formed still runs: it raises the fault the spec names. -/
def Instr.wellFormed (i : Instr) : Bool := i.destAllowed && i.modeAllowed

/-- R65: does the instruction use its destination field? (An instruction that only faults uses no field.) -/
def Instr.usesDest (i : Instr) : Bool :=
  match i.opcode with
  | .move => true
  | .lea => true
  | .push => false
  | .pop => i.modeAllowed

/-- R65: does the instruction use its source field? -/
def Instr.usesSrc (i : Instr) : Bool :=
  match i.opcode, i.mode with
  | .move, .immediate => false
  | .move, _ => true
  | .push, .atomic => true
  | _, _ => false

/-- R65: does the instruction use its size field? -/
def Instr.usesSize (i : Instr) : Bool :=
  match i.opcode, i.mode with
  | .move, .immediate => false
  | .move, _ => true
  | .lea, _ => false
  | _, _ => i.modeAllowed

/-- R64's canonical spelling: offset 0, zero in every ignored field (size code 0 is Byte), and for Lea mode 1 and
size Dword. -/
def Instr.canonical (i : Instr) : Bool :=
  i.fields.offset == 0
    && (i.usesDest || i.fields.dest == 0)
    && (i.usesSrc || i.fields.src == 0)
    && (match i.opcode with
        | .lea => i.mode == .immediate && i.fields.size == .dword
        | _ => i.usesSize || i.fields.size == .byte)

end Sys2Proof
end

