-- ==== Sys2Proof/Decode.lean ====
section
/-! DEFINITION. The decoder, a pure total function from a 32-bit word (spec/30_encoding.md R57), its reading of bytes,
and the encoder (R64). Field positions are R51's. The byte-order helpers stand here too: every multi-byte value is
big-endian (spec/20_memory.md R30, R41). -/

namespace Sys2Proof

/-- Four bytes, the one at the lowest address first, as one big-endian value (R30, R31). -/
def wordOfBytes (b0 b1 b2 b3 : Byte) : Word := b0 ++ b1 ++ b2 ++ b3

/-- Two bytes as one big-endian value (R31). -/
def halfOfBytes (b0 b1 : Byte) : BitVec 16 := b0 ++ b1

/-- Byte `k` of a word, byte 0 the least significant (R32's slices). -/
def byteOf (v : Word) (k : Nat) : Byte := v.extractLsb' (8 * k) 8

/-- The four bytes of a word in memory order, most significant first (R32). -/
def bytesOfWord (v : Word) : List Byte := [byteOf v 3, byteOf v 2, byteOf v 1, byteOf v 0]

/-! ### The fields of a word (R51) -/

def opcodeField (w : Word) : BitVec 8 := w.extractLsb' 0 8
def modeField (w : Word) : BitVec 3 := w.extractLsb' 8 3
def destField (w : Word) : BitVec 5 := w.extractLsb' 14 5
def srcField (w : Word) : BitVec 5 := w.extractLsb' 19 5
def offsetField (w : Word) : BitVec 6 := w.extractLsb' 24 6
def sizeField (w : Word) : BitVec 2 := w.extractLsb' 30 2

/-- R52: the four recognised opcode ids. -/
def opcodeOfId (o : BitVec 8) : Option Opcode :=
  if o = 0x01 then some .move
  else if o = 0x02 then some .lea
  else if o = 0x03 then some .push
  else if o = 0x04 then some .pop
  else none

/-- R54: the mode a 3-bit code names. -/
def modeOfCode (m : BitVec 3) : Mode :=
  if m = 0 then .atomic
  else if m = 1 then .immediate
  else if m = 2 then .memoryDest
  else if m = 3 then .memorySrc
  else if m = 4 then .memoryDestInc
  else if m = 5 then .memorySrcInc
  else if m = 6 then .memoryDestDec
  else .memorySrcDec

/-- R58: pattern 3 is Dword, like pattern 2. -/
def sizeOfCode (z : BitVec 2) : OperandSize :=
  if z = 0 then .byte else if z = 1 then .word else .dword

/-- R55, R56, R58: the operand fields of a word. Bits 13:11 are not read (R53). -/
def fieldsOfWord (w : Word) : Fields where
  dest := (destField w).toFin
  src := (srcField w).toFin
  offset := offsetField w
  size := sizeOfCode (sizeField w)

/-- R59: selection is by opcode first and by mode second. -/
def instrOf (op : Opcode) (m : Mode) (f : Fields) : Instr :=
  match op, m with
  | .move, .atomic => .moveAtomic f
  | .move, .immediate => .moveImmediate f
  | .move, .memoryDest => .moveMemoryDest f
  | .move, .memorySrc => .moveMemorySrc f
  | .move, .memoryDestInc => .moveMemoryDestInc f
  | .move, .memorySrcInc => .moveMemorySrcInc f
  | .move, .memoryDestDec => .moveMemoryDestDec f
  | .move, .memorySrcDec => .moveMemorySrcDec f
  | .lea, m => .lea m f
  | .push, .atomic => .pushAtomic f
  | .push, .immediate => .pushImmediate f
  | .push, .memoryDest => .pushMemoryDest f
  | .push, .memorySrc => .pushMemorySrc f
  | .push, .memoryDestInc => .pushMemoryDestInc f
  | .push, .memorySrcInc => .pushMemorySrcInc f
  | .push, .memoryDestDec => .pushMemoryDestDec f
  | .push, .memorySrcDec => .pushMemorySrcDec f
  | .pop, .atomic => .popAtomic f
  | .pop, .immediate => .popImmediate f
  | .pop, .memoryDest => .popMemoryDest f
  | .pop, .memorySrc => .popMemorySrc f
  | .pop, .memoryDestInc => .popMemoryDestInc f
  | .pop, .memorySrcInc => .popMemorySrcInc f
  | .pop, .memoryDestDec => .popMemoryDestDec f
  | .pop, .memorySrcDec => .popMemorySrcDec f

/-- R57: the decoder. Any opcode id but the four gives the Unrecognized marker with the raw word (R60). -/
def decode (w : Word) : Decoded :=
  match opcodeOfId (opcodeField w) with
  | some op => .instr (instrOf op (modeOfCode (modeField w)) (fieldsOfWord w))
  | none => .unrecognized w

/-- What reading an instruction from bytes gives: it and the bytes after its word, or why there is none. -/
inductive ByteDecoding where
  | instr (i : Instr) (rest : List Byte)
  | unrecognized (w : Word)
  | tooShort
deriving DecidableEq, Repr

/-- The decoder over bytes in memory order: the first four are the instruction word, big-endian (R41). -/
def decodeBytes : List Byte → ByteDecoding
  | b0 :: b1 :: b2 :: b3 :: rest =>
    match decode (wordOfBytes b0 b1 b2 b3) with
    | .instr i => .instr i rest
    | .unrecognized w => .unrecognized w
  | _ => .tooShort

/-- R62: has the instruction an operand word, so that it occupies 8 bytes? -/
def Instr.hasOperandWord (i : Instr) : Bool :=
  match i.opcode, i.mode with
  | .move, .immediate => true
  | .lea, _ => true
  | .push, .immediate => true
  | _, _ => false

/-! ### The encoder (R64) -/

def Opcode.id : Opcode → BitVec 8
  | .move => 0x01
  | .lea => 0x02
  | .push => 0x03
  | .pop => 0x04

def Mode.code : Mode → BitVec 3
  | .atomic => 0
  | .immediate => 1
  | .memoryDest => 2
  | .memorySrc => 3
  | .memoryDestInc => 4
  | .memorySrcInc => 5
  | .memoryDestDec => 6
  | .memorySrcDec => 7

def OperandSize.code : OperandSize → BitVec 2
  | .byte => 0
  | .word => 1
  | .dword => 2

/-- The word of given field contents, most significant field first (R51's diagram); bits 13:11 are written 0 (R53). -/
def packWord (z : BitVec 2) (f : BitVec 6) (s d : BitVec 5) (m : BitVec 3) (o : BitVec 8) : Word :=
  z ++ f ++ s ++ d ++ 0#3 ++ m ++ o

/-- R64: the instruction word of an instruction. -/
def encode (i : Instr) : Word :=
  packWord i.fields.size.code i.fields.offset (BitVec.ofFin i.fields.src) (BitVec.ofFin i.fields.dest) i.mode.code
    i.opcode.id

/-- The bytes of the instruction word in memory order. -/
def encodeBytes (i : Instr) : List Byte := bytesOfWord (encode i)

/-- The mask of the instruction's row in spec/opcode_table.json (R59): opcode and mode, for Lea the opcode alone. -/
def Instr.rowMask (i : Instr) : Word :=
  match i.opcode with
  | .lea => 0x000000FF
  | _ => 0x000007FF

/-- The match value of the instruction's row in spec/opcode_table.json (R59): opcode | mode<<8, for Lea 0x02. -/
def Instr.rowMatch (i : Instr) : Word :=
  match i.opcode, i.mode with
  | .move, .atomic => 0x00000001
  | .move, .immediate => 0x00000101
  | .move, .memoryDest => 0x00000201
  | .move, .memorySrc => 0x00000301
  | .move, .memoryDestInc => 0x00000401
  | .move, .memorySrcInc => 0x00000501
  | .move, .memoryDestDec => 0x00000601
  | .move, .memorySrcDec => 0x00000701
  | .lea, _ => 0x00000002
  | .push, .atomic => 0x00000003
  | .push, .immediate => 0x00000103
  | .push, .memoryDest => 0x00000203
  | .push, .memorySrc => 0x00000303
  | .push, .memoryDestInc => 0x00000403
  | .push, .memorySrcInc => 0x00000503
  | .push, .memoryDestDec => 0x00000603
  | .push, .memorySrcDec => 0x00000703
  | .pop, .atomic => 0x00000004
  | .pop, .immediate => 0x00000104
  | .pop, .memoryDest => 0x00000204
  | .pop, .memorySrc => 0x00000304
  | .pop, .memoryDestInc => 0x00000404
  | .pop, .memorySrcInc => 0x00000504
  | .pop, .memoryDestDec => 0x00000604
  | .pop, .memorySrcDec => 0x00000704

/-! ### Words as spec/opcode_table.json numbers them -/

/-- The 32-bit words of a table word: bit 0 is the least significant bit of the first word, and the operand word's
bits count on from bit 32. Bits from `nbits` up are 0. -/
def tableWords (nbits w : Nat) : Word × Word :=
  (BitVec.ofNat 32 (w % 2 ^ nbits), BitVec.ofNat 32 (w % 2 ^ nbits / 2 ^ 32))

/-- The instruction the decoder reads from the bytes of a table word, laid out big-endian as memory holds them. -/
def decodeTableWord (nbits w : Nat) : Option Instr :=
  match decodeBytes (bytesOfWord (tableWords nbits w).1 ++ bytesOfWord (tableWords nbits w).2) with
  | .instr i _ => some i
  | .unrecognized _ => none
  | .tooShort => none

end Sys2Proof
end

