-- ==== Sys2Proof/Machine/State.lean ====
section
/-! DEFINITION. The state of one core (spec/10_state.md section 1), the reasons it can stop, and the state after
reset (spec/70_reset_and_hazards.md R140). -/

namespace Sys2Proof.Machine

/-- The four fault causes of spec/60_exceptions.md R121 with the information each records. -/
inductive Cause where
  /-- Cause 1, raised by `execute` of the Unrecognized marker: the raw word. -/
  | unrecognizedOpcode (w : Word)
  /-- Cause 2, raised by Lea with a data register as destination: that ordinal. -/
  | preconditionViolation (dest : Reg)
  /-- Cause 3, raised by Push in modes 2-7 and Pop in modes 1-7: the opcode and the mode. -/
  | unimplementedMode (op : Opcode) (mode : Mode)
  /-- Cause 4, raised by every access that leaves memory: its address and its width in bytes. -/
  | memoryBounds (addr : Word) (width : Nat)
deriving DecidableEq, Repr

/-- The run state (R21). -/
inductive RunState where
  | running
  | halted (cause : Cause)
deriving DecidableEq, Repr

/-- The flat byte memory (R22): its capacity MEM_SIZE, which no operation changes, and the bytes that differ from
`Config.unlistedByte`, at strictly rising addresses. `size` is a parameter of the core that R5 lets vary; it stands
here so that one model covers every capacity (log 2). -/
structure Memory where
  size : Nat
  cells : List Host.Cell
deriving DecidableEq, Repr

/-- The canonical form: addresses strictly rise, stay below MEM_SIZE, and no cell equals what an unlisted address
reads as; and MEM_SIZE is in R5's range. -/
abbrev Memory.wf (m : Memory) : Prop :=
  m.cells.Pairwise (fun p q => p.1 < q.1)
    ∧ (∀ c ∈ m.cells, c.1 < m.size ∧ c.2 ≠ Config.unlistedByte)
    ∧ Config.memSizeMin ≤ m.size ∧ m.size ≤ Config.memSizeMax

/-- The whole state of one core. -/
structure State where
  /-- `x[0..31]` (R10). -/
  regs : Vector Word 32
  /-- The last-written-value cache (R17). -/
  last : Word
  /-- The program counter (R15). -/
  pc : Word
  /-- The status register `SR` (R20): bit 0 Z, bit 1 N, the rest reserved. -/
  sr : Word
  mem : Memory
  run : RunState
deriving DecidableEq, Repr

/-- Outcomes that leave the machine without a next state: none. Every fatal condition of this hardware has a state
the spec gives it, `run = Halted(cause)` (R21, R124), so it is a next state and no constructor stands here; nothing
raises one. Safe: no behaviour is cut off (log 3). -/
inductive Fault where
deriving DecidableEq, Repr

/-- Refusals of the model. -/
inductive Refusal where
  /-- Raised by an arm of `exec` for an instruction without a meaning (none is left). Safe: nothing is claimed. -/
  | notModelled (mnemonic : String)
deriving DecidableEq, Repr

/-- The three outcomes at this machine's types. -/
abbrev Result := Host.Outcome State Fault Refusal

/-- R140 with MEM_SIZE at R5's default and, by log 1, an empty IMAGE and INITIAL_PC = 0. -/
def State.reset : State where
  regs := Vector.replicate 32 0
  last := 0
  pc := Config.initialPc
  sr := 0
  mem := { size := Config.memSize, cells := [] }
  run := .running

end Sys2Proof.Machine
end

