-- ==== Sys2Proof/Machine/Ops.lean ====
section
/-! DEFINITION. The named operations over registers, memory and the run state. -/

namespace Sys2Proof

/-- `bytes(s)` (spec/10_state.md R18). -/
def OperandSize.bytes : OperandSize → Nat
  | .byte => 1
  | .word => 2
  | .dword => 4

end Sys2Proof

namespace Sys2Proof.Machine

/-! ### Registers and the program counter -/

/-- `x[i]` (spec/10_state.md R13): all 32 bits, no side effect. -/
def State.readReg (s : State) (i : Reg) : Word := s.regs.get i

/-- `x[i] <- v` (R14): the only way a register changes; it also sets `last`. -/
def State.writeReg (s : State) (i : Reg) (v : Word) : State :=
  { s with regs := s.regs.set i.val v i.isLt, last := v }

/-- `pc <- v`. -/
def State.setPc (s : State) (v : Word) : State := { s with pc := v }

/-! ### Memory -/

/-- The byte the first cell for `a` holds, or what an unlisted address reads as. -/
def readCells : List Host.Cell → Nat → Byte
  | [], _ => Config.unlistedByte
  | (k, b) :: rest, a => if k = a then b else readCells rest a

/-- Put a cell before the first one with a higher address. -/
def insertCell (a : Nat) (v : Byte) : List Host.Cell → List Host.Cell
  | [] => [(a, v)]
  | (k, b) :: rest => if k < a then (k, b) :: insertCell a v rest else (a, v) :: (k, b) :: rest

/-- The cells with the byte at `a` replaced, in canonical form again. -/
def writeCells (cells : List Host.Cell) (a : Nat) (v : Byte) : List Host.Cell :=
  let others := cells.filter fun c => c.1 ≠ a
  if v = Config.unlistedByte then others else insertCell a v others

/-- `mem[a]` (R22). -/
def Memory.readByte (m : Memory) (a : Nat) : Byte := readCells m.cells a

/-- `mem[a] <- v`. -/
def Memory.writeByte (m : Memory) (a : Nat) (v : Byte) : Memory := { m with cells := writeCells m.cells a v }

/-- The bounds rule (spec/20_memory.md R36): `a + n <= MEM_SIZE` in unbounded integers. -/
def Memory.inRange (m : Memory) (a : Word) (n : Nat) : Bool := a.toNat + n ≤ m.size

/-- The in-range case of `MemRead` (R31), zero-extended to 32 bits: big-endian. -/
def Memory.readSized (m : Memory) (a : Nat) : OperandSize → Word
  | .byte => (m.readByte a).setWidth 32
  | .word => (halfOfBytes (m.readByte a) (m.readByte (a + 1))).setWidth 32
  | .dword => wordOfBytes (m.readByte a) (m.readByte (a + 1)) (m.readByte (a + 2)) (m.readByte (a + 3))

/-- The in-range case of `MemWrite` (R32): the low bytes of `v`, most significant first. -/
def Memory.writeSized (m : Memory) (a : Nat) (v : Word) : OperandSize → Memory
  | .byte => m.writeByte a (byteOf v 0)
  | .word => (m.writeByte a (byteOf v 1)).writeByte (a + 1) (byteOf v 0)
  | .dword =>
    (((m.writeByte a (byteOf v 3)).writeByte (a + 1) (byteOf v 2)).writeByte (a + 2) (byteOf v 1)).writeByte (a + 3)
      (byteOf v 0)

/-- `MemRead(a, bytes(sz))`, zero-extended (R31); `none` is the bounds fault (R36). -/
def Memory.read (m : Memory) (a : Word) (sz : OperandSize) : Option Word :=
  if m.inRange a sz.bytes then some (m.readSized a.toNat sz) else none

/-- `MemWrite(a, bytes(sz), v)` (R32); `none` is the bounds fault (R36), and nothing is written. -/
def Memory.write (m : Memory) (a : Word) (sz : OperandSize) (v : Word) : Option Memory :=
  if m.inRange a sz.bytes then some (m.writeSized a.toNat v sz) else none

/-! ### Faults: the one exception entry of this hardware

There is no return beside it: a halted core stays halted until reset (spec/60_exceptions.md R130). -/

/-- The code R121 numbers a cause with. -/
def Cause.code : Cause → Nat
  | .unrecognizedOpcode _ => 1
  | .preconditionViolation _ => 2
  | .unimplementedMode _ _ => 3
  | .memoryBounds _ _ => 4

/-- `raise` (R124): from the state before the instruction, `run <- Halted(cause)` and nothing else changes. -/
def raise (s : State) (c : Cause) : Result := .next { s with run := .halted c }

/-- A halted core does nothing (spec/44_instruction_cycle.md R110, R124); a running one acts. -/
def whenRunning (s : State) (act : Result) : Result :=
  match s.run with
  | .running => act
  | .halted _ => .next s

/-! ### Checked accesses

`s` is the state before the instruction, from which a fault is raised (R125: every check precedes every write). -/

/-- Read memory and go on with the zero-extended value, or raise `MemoryBounds`. -/
def withLoad (s : State) (a : Word) (sz : OperandSize) (k : Word → Result) : Result :=
  match s.mem.read a sz with
  | some v => k v
  | none => raise s (.memoryBounds a sz.bytes)

/-- Write memory and go on from the state that has it written, or raise `MemoryBounds`. -/
def withStore (s : State) (a : Word) (sz : OperandSize) (v : Word) (k : State → Result) : Result :=
  match s.mem.write a sz v with
  | some m => k { s with mem := m }
  | none => raise s (.memoryBounds a sz.bytes)

/-! ### The instruction cycle's parts (spec/44_instruction_cycle.md R110) -/

/-- R111: the instruction word is the four bytes at `pc`, wherever it points. -/
def withFetch (s : State) (k : Word → Result) : Result := withLoad s s.pc .dword k

/-- `execute` of the Unrecognized marker (R113): cause 1. -/
def execUnrecognized (w : Word) (s : State) : Result := whenRunning s (raise s (.unrecognizedOpcode w))

/-- R112: after an `execute` that left the core running, `pc <- pc + 4` modulo 2^32. -/
def State.advancePc (s : State) : State :=
  match s.run with
  | .running => s.setPc (s.pc + 4)
  | .halted _ => s

/-- The incrementer on the outcome of `execute`. -/
def advance : Result → Result
  | .next s => .next s.advancePc
  | .fault r => .fault r
  | .refused r => .refused r

/-! ### Placing a word for the next fetch -/

/-- Store a word big-endian at `a` where all of it fits in memory; elsewhere leave memory as it is. -/
def Memory.placeWord (m : Memory) (a v : Word) : Memory :=
  match m.write a .dword v with
  | some m' => m'
  | none => m

end Sys2Proof.Machine
end

