-- ==== Sys2Proof/Machine/Operands.lean ====
section
/-! DEFINITION. The operand forms: size truncation, the operand word, and the pointer adjustments that follow a
transfer (spec/30_encoding.md R54). -/

namespace Sys2Proof

/-- `trunc_s(v)` (spec/10_state.md R19): a mask, nothing is sign-extended. -/
def OperandSize.trunc (sz : OperandSize) (v : Word) : Word :=
  match sz with
  | .byte => v &&& 0x000000FF
  | .word => v &&& 0x0000FFFF
  | .dword => v

/-- The address registers, the only ones Lea may write (spec/41_lea.md R90). -/
def isAddressReg (r : Reg) : Bool := 16 ≤ r.val

/-- The stack pointer, A15 (spec/42_push_pop.md R95). -/
def stackReg : Reg := 31

end Sys2Proof

namespace Sys2Proof.Machine

/-- The address of the operand word: `pc + 4` modulo 2^32 (spec/30_encoding.md R61). -/
def State.operandAddr (s : State) : Word := s.pc + 4

/-- Fetch the operand word, four bytes whatever the size field says, or raise `MemoryBounds`. -/
def withOperandWord (s : State) (k : Word → Result) : Result := withLoad s s.operandAddr .dword k

/-- `pc` onto the operand word (spec/10_state.md R16). -/
def State.toOperandWord (s : State) : State := s.setPc s.operandAddr

/-- `x[r] <- x[r] + n`, re-reading the register (spec/40_move.md R76, R81). -/
def State.incReg (s : State) (r : Reg) (sz : OperandSize) : State :=
  s.writeReg r (s.readReg r + BitVec.ofNat 32 sz.bytes)

/-- `x[r] <- x[r] - n`, re-reading the register (R78, R81). -/
def State.decReg (s : State) (r : Reg) (sz : OperandSize) : State :=
  s.writeReg r (s.readReg r - BitVec.ofNat 32 sz.bytes)

end Sys2Proof.Machine
end

