-- ==== Sys2Proof/Machine/Lea.lean ====
section
/-! DEFINITION. Lea (spec/41_lea.md R90, R91). -/

namespace Sys2Proof.Machine

/-- R90: the destination check comes first (R128), then the operand word; no flag is written. The mode selects
nothing (R91). -/
def execLea (_m : Mode) (f : Fields) (s : State) : Result :=
  whenRunning s <|
    if isAddressReg f.dest then withOperandWord s fun v => .next (s.toOperandWord.writeReg f.dest v)
    else raise s (.preconditionViolation f.dest)

end Sys2Proof.Machine
end

