-- ==== Sys2Proof/Machine/Flags.lean ====
section
/-! DEFINITION. The status register's flags and the one flag computation (spec/10_state.md R20, spec/40_move.md
R79). -/

namespace Sys2Proof.Machine

/-- Zero, bit 0 of `SR` (R20). -/
def State.zFlag (s : State) : Bool := s.sr.getLsbD 0

/-- Negative, bit 1 of `SR` (R20). -/
def State.nFlag (s : State) : Bool := s.sr.getLsbD 1

/-- `SR` with Z and N replaced and bits 31:2 kept. -/
def withFlags (sr : Word) (z n : Bool) : Word := sr.extractLsb' 2 30 ++ BitVec.ofBool n ++ BitVec.ofBool z

/-- `update_flags()` (R79): Z and N from the last-written cache; the other bits are not touched. -/
def State.updateFlags (s : State) : State :=
  { s with sr := withFlags s.sr (s.last == 0) (s.last.getLsbD 31) }

end Sys2Proof.Machine
end

