-- ==== Sys2Proof/Machine/Move.lean ====
section
/-! DEFINITION. The Move family, one meaning per addressing mode (spec/40_move.md R71 to R78). Every one that
completes ends with the flag update (R79); the only fault is `MemoryBounds` (R70). -/

namespace Sys2Proof.Machine

/-- R71. -/
def execMoveAtomic (f : Fields) (s : State) : Result :=
  whenRunning s <| .next (s.writeReg f.dest (f.size.trunc (s.readReg f.src))).updateFlags

/-- R72: all 32 bits of the operand word, whatever the size field says. -/
def execMoveImmediate (f : Fields) (s : State) : Result :=
  whenRunning s <| withOperandWord s fun v => .next (s.toOperandWord.writeReg f.dest v).updateFlags

/-- R73: no register is written, so the flags come from an earlier write. -/
def execMoveMemoryDest (f : Fields) (s : State) : Result :=
  whenRunning s <| withStore s (s.readReg f.dest) f.size (f.size.trunc (s.readReg f.src)) fun t =>
    .next t.updateFlags

/-- R74. -/
def execMoveMemorySrc (f : Fields) (s : State) : Result :=
  whenRunning s <| withLoad s (s.readReg f.src) f.size fun v => .next (s.writeReg f.dest v).updateFlags

/-- R75. -/
def execMoveMemoryDestInc (f : Fields) (s : State) : Result :=
  whenRunning s <| withStore s (s.readReg f.dest) f.size (f.size.trunc (s.readReg f.src)) fun t =>
    .next (t.incReg f.dest f.size).updateFlags

/-- R76: `dest` is written first, and the pointer is re-read after that write. -/
def execMoveMemorySrcInc (f : Fields) (s : State) : Result :=
  whenRunning s <| withLoad s (s.readReg f.src) f.size fun v =>
    .next ((s.writeReg f.dest v).incReg f.src f.size).updateFlags

/-- R77: the store is at the undecremented address. -/
def execMoveMemoryDestDec (f : Fields) (s : State) : Result :=
  whenRunning s <| withStore s (s.readReg f.dest) f.size (f.size.trunc (s.readReg f.src)) fun t =>
    .next (t.decReg f.dest f.size).updateFlags

/-- R78: the load is at the undecremented address. -/
def execMoveMemorySrcDec (f : Fields) (s : State) : Result :=
  whenRunning s <| withLoad s (s.readReg f.src) f.size fun v =>
    .next ((s.writeReg f.dest v).decReg f.src f.size).updateFlags

end Sys2Proof.Machine
end

