-- ==== Sys2Proof/Machine/Pop.lean ====
section
/-! DEFINITION. Pop (spec/42_push_pop.md R99 to R101). No mode writes the status register (R102). -/

namespace Sys2Proof.Machine

/-- R99: the load is at the unincremented stack pointer; A15 is written first, then `dest`. -/
def execPopAtomic (f : Fields) (s : State) : Result :=
  whenRunning s <| withLoad s (s.readReg stackReg) f.size fun v =>
    .next ((s.incReg stackReg f.size).writeReg f.dest v)

/-- R100, R101: Pop in a mode without a meaning raises cause 3. -/
def raisePopMode (m : Mode) (s : State) : Result := whenRunning s (raise s (.unimplementedMode .pop m))

/-- R100, mode 1: no operand word is consumed. -/
def execPopImmediate (_f : Fields) (s : State) : Result := raisePopMode .immediate s

/-- R101, mode 2. -/
def execPopMemoryDest (_f : Fields) (s : State) : Result := raisePopMode .memoryDest s

/-- R101, mode 3. -/
def execPopMemorySrc (_f : Fields) (s : State) : Result := raisePopMode .memorySrc s

/-- R101, mode 4. -/
def execPopMemoryDestInc (_f : Fields) (s : State) : Result := raisePopMode .memoryDestInc s

/-- R101, mode 5. -/
def execPopMemorySrcInc (_f : Fields) (s : State) : Result := raisePopMode .memorySrcInc s

/-- R101, mode 6. -/
def execPopMemoryDestDec (_f : Fields) (s : State) : Result := raisePopMode .memoryDestDec s

/-- R101, mode 7. -/
def execPopMemorySrcDec (_f : Fields) (s : State) : Result := raisePopMode .memorySrcDec s

end Sys2Proof.Machine
end

