-- ==== Sys2Proof/Machine/Push.lean ====
section
/-! DEFINITION. Push (spec/42_push_pop.md R96 to R98). No mode writes the status register (R102). -/

namespace Sys2Proof.Machine

/-- R96: the store is at the undecremented stack pointer. -/
def execPushAtomic (f : Fields) (s : State) : Result :=
  whenRunning s <| withStore s (s.readReg stackReg) f.size (f.size.trunc (s.readReg f.src)) fun t =>
    .next (t.decReg stackReg f.size)

/-- R97: both checks precede every write, the operand word's first. -/
def execPushImmediate (f : Fields) (s : State) : Result :=
  whenRunning s <| withOperandWord s fun v =>
    withStore s (s.readReg stackReg) f.size (f.size.trunc v) fun t => .next (t.toOperandWord.decReg stackReg f.size)

/-- R98: Push in a mode without a meaning raises cause 3. -/
def raisePushMode (m : Mode) (s : State) : Result := whenRunning s (raise s (.unimplementedMode .push m))

/-- R98, mode 2. -/
def execPushMemoryDest (_f : Fields) (s : State) : Result := raisePushMode .memoryDest s

/-- R98, mode 3. -/
def execPushMemorySrc (_f : Fields) (s : State) : Result := raisePushMode .memorySrc s

/-- R98, mode 4. -/
def execPushMemoryDestInc (_f : Fields) (s : State) : Result := raisePushMode .memoryDestInc s

/-- R98, mode 5. -/
def execPushMemorySrcInc (_f : Fields) (s : State) : Result := raisePushMode .memorySrcInc s

/-- R98, mode 6. -/
def execPushMemoryDestDec (_f : Fields) (s : State) : Result := raisePushMode .memoryDestDec s

/-- R98, mode 7. -/
def execPushMemorySrcDec (_f : Fields) (s : State) : Result := raisePushMode .memorySrcDec s

end Sys2Proof.Machine
end

