-- ==== Sys2Proof/Machine/Dispatch.lean ====
section
/-! DEFINITION. `execute` of a recognised instruction: one arm per constructor of `Instr`, each one call of its
meaning. -/

namespace Sys2Proof.Machine

def exec (i : Instr) (s : State) : Host.Outcome State Fault Refusal :=
  match i with
  -- Move, spec/40_move.md
  | .moveAtomic f => Sys2Proof.Machine.execMoveAtomic f s
  | .moveImmediate f => Sys2Proof.Machine.execMoveImmediate f s
  | .moveMemoryDest f => Sys2Proof.Machine.execMoveMemoryDest f s
  | .moveMemorySrc f => Sys2Proof.Machine.execMoveMemorySrc f s
  | .moveMemoryDestInc f => Sys2Proof.Machine.execMoveMemoryDestInc f s
  | .moveMemorySrcInc f => Sys2Proof.Machine.execMoveMemorySrcInc f s
  | .moveMemoryDestDec f => Sys2Proof.Machine.execMoveMemoryDestDec f s
  | .moveMemorySrcDec f => Sys2Proof.Machine.execMoveMemorySrcDec f s
  -- Lea, spec/41_lea.md
  | .lea m f => Sys2Proof.Machine.execLea m f s
  -- Push and Pop, spec/42_push_pop.md
  | .pushAtomic f => Sys2Proof.Machine.execPushAtomic f s
  | .pushImmediate f => Sys2Proof.Machine.execPushImmediate f s
  | .pushMemoryDest f => Sys2Proof.Machine.execPushMemoryDest f s
  | .pushMemorySrc f => Sys2Proof.Machine.execPushMemorySrc f s
  | .pushMemoryDestInc f => Sys2Proof.Machine.execPushMemoryDestInc f s
  | .pushMemorySrcInc f => Sys2Proof.Machine.execPushMemorySrcInc f s
  | .pushMemoryDestDec f => Sys2Proof.Machine.execPushMemoryDestDec f s
  | .pushMemorySrcDec f => Sys2Proof.Machine.execPushMemorySrcDec f s
  | .popAtomic f => Sys2Proof.Machine.execPopAtomic f s
  | .popImmediate f => Sys2Proof.Machine.execPopImmediate f s
  | .popMemoryDest f => Sys2Proof.Machine.execPopMemoryDest f s
  | .popMemorySrc f => Sys2Proof.Machine.execPopMemorySrc f s
  | .popMemoryDestInc f => Sys2Proof.Machine.execPopMemoryDestInc f s
  | .popMemorySrcInc f => Sys2Proof.Machine.execPopMemorySrcInc f s
  | .popMemoryDestDec f => Sys2Proof.Machine.execPopMemoryDestDec f s
  | .popMemorySrcDec f => Sys2Proof.Machine.execPopMemorySrcDec f s

end Sys2Proof.Machine
end

