-- ==== Sys2Proof/Machine/Reset.lean ====
section
/-! DEFINITION. The `reset` operation with its three arguments (spec/70_reset_and_hazards.md R140, spec/00_scope.md
R5). -/

namespace Sys2Proof.Machine

/-- The cells of the bytes of IMAGE that stand from address `a` on. -/
def imageCells (a : Nat) : List Byte → List Host.Cell
  | [] => []
  | b :: rest => if b = Config.unlistedByte then imageCells (a + 1) rest else (a, b) :: imageCells (a + 1) rest

/-- `reset(MEM_SIZE, IMAGE, INITIAL_PC)` (R140); `none` where its `require` line fails. Registers are written
directly, so `last` is 0 and not a register's value, and Z is 0 although `last` is 0. -/
def launch (memSize : Nat) (image : List Byte) (initialPc : Word) : Option State :=
  if Config.memSizeMin ≤ memSize ∧ memSize ≤ Config.memSizeMax ∧ image.length ≤ memSize then
    some
      { regs := Vector.replicate 32 0
        last := 0
        pc := initialPc
        sr := 0
        mem := { size := memSize, cells := imageCells 0 image }
        run := .running }
  else none

end Sys2Proof.Machine
end

