-- ==== Sys2Proof/Machine/Step.lean ====
section
/-! DEFINITION. One instruction cycle (spec/44_instruction_cycle.md R110). -/

namespace Sys2Proof.Machine

/-- `execute` of whatever the decoder answered (spec/00_scope.md R6), usable outside `step` too (R117). -/
def execute (d : Decoded) (s : State) : Result :=
  match d with
  | .instr i => exec i s
  | .unrecognized w => execUnrecognized w s

/-- R110: fetch, decode, execute, and the closing `pc <- pc + 4`; a halted core does nothing. -/
def step (s : State) : Host.Outcome State Fault Refusal :=
  whenRunning s <| withFetch s fun w => advance (execute (decode w) s)

/-- `s` with an instruction of spec/opcode_table.json's numbering stored where `step` fetches next: its word at `pc`,
its operand word (zero where `w` has no bits for it) at `pc + 4`, each if it fits in memory. -/
def State.withFetchWord (s : State) (nbits w : Nat) : State :=
  { s with
    mem := (s.mem.placeWord (s.pc + 4) (tableWords nbits w).2).placeWord s.pc (tableWords nbits w).1 }

end Sys2Proof.Machine
end

