-- ==== Sys2Proof/Safety.lean ====
section
/-! DEFINITION. What a safe run is, the invariant of the machine, and the words claims are stated in. -/

namespace Sys2Proof.Machine

/-! ### Runs -/

/-- The core has stopped with a fault (spec/10_state.md R21). A halted state is never a successful end of a run. -/
def State.isHalted (s : State) : Prop := s.run ≠ .running

/-- One completed instruction cycle (spec/44_instruction_cycle.md R112): the core ran and still runs. -/
def CompletesStep (s t : State) : Prop := s.run = .running ∧ step s = .next t ∧ t.run = .running

/-- `k` cycles from `s` raise no fault. -/
def SafeRun (k : Nat) (s : State) : Prop := ∃ t, core.run k s = .next t ∧ t.run = .running

/-! ### The invariant -/

/-- The condition spec/60_exceptions.md R121 gives for raising a cause, on a memory of `size` bytes: what a recorded
cause says is so. -/
def Cause.justified (size : Nat) : Cause → Prop
  | .unrecognizedOpcode w => opcodeField w ≠ 1 ∧ opcodeField w ≠ 2 ∧ opcodeField w ≠ 3 ∧ opcodeField w ≠ 4
  | .preconditionViolation d => d.val < 16
  | .unimplementedMode op m =>
    (op = .push ∧ m ≠ .atomic ∧ m ≠ .immediate) ∨ (op = .pop ∧ m ≠ .atomic)
  | .memoryBounds a n => (n = 1 ∨ n = 2 ∨ n = 4) ∧ size < a.toNat + n

/-- What every step keeps: memory in canonical form within its capacity, the reserved bits of `SR` zero (R20), Z and
N never both 1 (R24), and a recorded fault cause that is so (R121). -/
structure Inv (s : State) : Prop where
  memory : s.mem.wf
  reserved : ∀ i, 2 ≤ i → s.sr.getLsbD i = false
  flags : ¬ (s.zFlag = true ∧ s.nFlag = true)
  cause : ∀ c, s.run = .halted c → c.justified s.mem.size

/-! ### The faults of an instruction, from the spec's tables -/

/-- The bounds fault of an access, where there is one (spec/20_memory.md R36). -/
def boundsFault (m : Memory) (a : Word) (n : Nat) : Option Cause :=
  if a.toNat + n ≤ m.size then none else some (.memoryBounds a n)

end Sys2Proof.Machine

namespace Sys2Proof

open Machine

/-- The address of the one data or stack access an instruction makes, if any (R33). -/
def Instr.dataAddr (i : Instr) (s : State) : Option Word :=
  match i.opcode, i.mode with
  | .move, .memoryDest | .move, .memoryDestInc | .move, .memoryDestDec => some (s.readReg i.fields.dest)
  | .move, .memorySrc | .move, .memorySrcInc | .move, .memorySrcDec => some (s.readReg i.fields.src)
  | .move, .atomic | .move, .immediate | .lea, _ => none
  | .push, .atomic | .push, .immediate | .pop, .atomic => some (s.readReg 31)
  | .push, _ | .pop, _ => none

/-- The one fault `execute` reports, in the order of spec/60_exceptions.md R128: precondition, unimplemented mode,
bounds of the operand word, bounds of the data or stack access. -/
def Instr.faultOf (i : Instr) (s : State) : Option Cause :=
  if i.destAllowed = false then some (.preconditionViolation i.fields.dest)
  else if i.modeAllowed = false then some (.unimplementedMode i.opcode i.mode)
  else
    ((if i.hasOperandWord then boundsFault s.mem (s.pc + 4) 4 else none).orElse fun _ =>
      (Instr.dataAddr i s).bind fun a => boundsFault s.mem a i.fields.size.bytes)

/-! ### The registers an instruction touches (spec/10_state.md R12's table) -/

/-- The registers read, as a value or as an address. -/
def Instr.reads (i : Instr) : List Reg :=
  match i.opcode, i.mode with
  | .move, .atomic | .move, .memorySrc => [i.fields.src]
  | .move, .immediate | .lea, _ => []
  | .move, .memoryDest | .move, .memoryDestInc | .move, .memoryDestDec => [i.fields.dest, i.fields.src]
  | .move, .memorySrcInc | .move, .memorySrcDec => [i.fields.src]
  | .push, .atomic => [i.fields.src, 31]
  | .push, .immediate | .pop, .atomic => [31]
  | .push, _ | .pop, _ => []

/-- The registers written by an instruction that completes, in the order of the writes. -/
def Instr.writes (i : Instr) : List Reg :=
  match i.opcode, i.mode with
  | .move, .memoryDest => []
  | .move, .memorySrcInc | .move, .memorySrcDec => [i.fields.dest, i.fields.src]
  | .move, _ | .lea, _ => [i.fields.dest]
  | .push, .atomic | .push, .immediate => [31]
  | .pop, .atomic => [31, i.fields.dest]
  | .push, _ | .pop, _ => []

/-! ### Words -/

/-- The instruction word spec/30_encoding.md R51's formula gives: opcode | mode<<8 | dest<<14 | src<<19 | offset<<24 |
size<<30 (the fields stand in disjoint bits, so the sum is the or). -/
def EncodedAs (i : Instr) (op mode : Nat) : Prop :=
  (encode i).toNat = op + mode * 2 ^ 8 + i.fields.dest.val * 2 ^ 14 + i.fields.src.val * 2 ^ 19
    + i.fields.offset.toNat * 2 ^ 24 + i.fields.size.code.toNat * 2 ^ 30

end Sys2Proof

namespace Sys2Proof.Machine

/-- The same state with another content of one register, not through the write port. -/
def State.pokeReg (s : State) (q : Reg) (v : Word) : State := { s with regs := s.regs.set q.val v q.isLt }

/-! ### The fetched word -/

/-- The 4-byte big-endian value at `pc` in memory: the word the next cycle fetches (R41, R111). -/
def State.fetchedWord (s : State) : Word := s.mem.readSized s.pc.toNat .dword

/-- That word lies in memory. -/
def State.canFetch (s : State) : Prop := s.pc.toNat + 4 ≤ s.mem.size

/-! ### What changed and what did not -/

/-- Every register holds what it held. -/
def SameRegs (s t : State) : Prop := ∀ q : Reg, t.readReg q = s.readReg q

/-- Register `r` holds `v`, and every other register what it held. -/
def OneRegSet (s t : State) (r : Reg) (v : Word) : Prop :=
  ∀ q : Reg, t.readReg q = if q = r then v else s.readReg q

/-- Every byte of memory reads as before, and the capacity is the same. -/
def SameMemory (s t : State) : Prop :=
  t.mem.size = s.mem.size ∧ ∀ b : Nat, t.mem.readByte b = s.mem.readByte b

/-- Every byte outside `a .. a+n-1` reads as before, and the capacity is the same. -/
def SameOutside (m m' : Memory) (a n : Nat) : Prop :=
  m'.size = m.size ∧ ∀ b : Nat, b < a ∨ a + n ≤ b → m'.readByte b = m.readByte b

/-- The low `n` bytes of `v` stand big-endian at `a .. a+n-1` (spec/20_memory.md R32). -/
def HoldsBigEndian (m : Memory) (a n : Nat) (v : Word) : Prop :=
  ∀ k : Nat, k < n → m.readByte (a + k) = byteOf v (n - 1 - k)

/-- Z and N are computed from `v` (spec/40_move.md R79), and every other bit of `SR` is as before. -/
def FlagsFrom (s t : State) (v : Word) : Prop :=
  t.zFlag = decide (v = 0) ∧ t.nFlag = v.getLsbD 31 ∧ ∀ i : Nat, 2 ≤ i → t.sr.getLsbD i = s.sr.getLsbD i

/-- The same state with another status register. -/
def State.withSr (s : State) (v : Word) : State := { s with sr := v }

/-- The same state with another last-written cache. -/
def State.withLast (s : State) (v : Word) : State := { s with last := v }

/-- The same state, halted with a cause: what a fault leaves (spec/60_exceptions.md R124). -/
def State.haltedWith (s : State) (c : Cause) : State := { s with run := .halted c }

end Sys2Proof.Machine
end

