-- ==== Sys2Proof/Certificates/Slice0/Obligations.lean ====
section
/-! DEFINITION. The statements for the provers. `exec` is `execute` of a recognised instruction, `step` one
instruction cycle; the words the statements use (`OneRegSet`, `FlagsFrom`, `SameOutside`, …) are in
Sys2Proof/Safety.lean. A fault is a next state: `s.haltedWith c` is `s` with its run state `Halted(c)` and nothing else
changed. -/

open Sys2Proof Sys2Proof.Machine

/-! ## Encoding -/

/-- Words written out from the layout of 30_encoding.md (size, offset, source, destination, three unread bits, mode,
opcode) decode to the instructions they stand for. -/
def Obligations.WordsFromTheLayoutDecode : Prop :=
  decode 0b10_000000_00101_00000_000_000_00000001#32 = .instr (.moveAtomic ⟨0, 5, 0, .dword⟩)
    ∧ decode 0b10_000000_10000_00001_000_101_00000001#32 = .instr (.moveMemorySrcInc ⟨1, 16, 0, .dword⟩)
    ∧ decode 0b10_000000_00000_10000_000_001_00000010#32 = .instr (.lea .immediate ⟨16, 0, 0, .dword⟩)
    ∧ decode 0b01_000000_00000_00000_000_001_00000011#32 = .instr (.pushImmediate ⟨0, 0, 0, .word⟩)
    ∧ decode 0b11_111111_11111_11111_000_111_00000100#32 = .instr (.popMemorySrcDec ⟨31, 31, 63, .dword⟩)
    ∧ decode 0b00_000000_00000_00000_000_000_00000101#32 = .unrecognized 5

/-- The spec's derived round trip (it marks it 'derived: from rule R57'): decoding an encoded instruction, as a word
or as bytes with anything after it, gives it back with every field. -/
def Obligations.DecodeOfEncode : Prop :=
  ∀ i : Instr, decode (encode i) = .instr i
    ∧ ∀ rest : List Byte, decodeBytes (encodeBytes i ++ rest) = .instr i rest

/-- The other direction of the spec's derived round trip: a word is the encoding of what it decodes to exactly when
its opcode id is 1 to 4, its bits 13:11 are 0 and its size pattern is not 3. -/
def Obligations.EncodeOfDecodeExactlyInRange : Prop :=
  ∀ w : Word, (∃ i, decode w = .instr i ∧ encode i = w)
    ↔ (1 ≤ w.toNat % 2 ^ 8 ∧ w.toNat % 2 ^ 8 ≤ 4 ∧ w.toNat / 2 ^ 11 % 2 ^ 3 = 0 ∧ w.toNat / 2 ^ 30 ≠ 3)

/-- Decoding is field extraction: which words are recognised, and what every field of the instruction is. The field
positions, the opcode set and the shape of the answer are the spec's decisions D1, D2, D3, D4, D5 and D6. -/
def Obligations.DecodeExtractsEveryField : Prop :=
  ∀ w : Word,
    (1 ≤ w.toNat % 2 ^ 8 ∧ w.toNat % 2 ^ 8 ≤ 4 →
      ∃ i, decode w = .instr i
        ∧ [Opcode.move, .lea, .push, .pop][w.toNat % 2 ^ 8 - 1]? = some i.opcode
        ∧ [Mode.atomic, .immediate, .memoryDest, .memorySrc, .memoryDestInc, .memorySrcInc, .memoryDestDec,
            .memorySrcDec][w.toNat / 2 ^ 8 % 2 ^ 3]? = some i.mode
        ∧ i.fields.dest.val = w.toNat / 2 ^ 14 % 2 ^ 5
        ∧ i.fields.src.val = w.toNat / 2 ^ 19 % 2 ^ 5
        ∧ i.fields.offset.toNat = w.toNat / 2 ^ 24 % 2 ^ 6
        ∧ [OperandSize.byte, .word, .dword, .dword][w.toNat / 2 ^ 30]? = some i.fields.size)
    ∧ (¬ (1 ≤ w.toNat % 2 ^ 8 ∧ w.toNat % 2 ^ 8 ≤ 4) → decode w = .unrecognized w)

/-- The encoder writes every field where the layout's formula puts it (field positions: the spec's decisions D1 and D2
on conflict C1). -/
def Obligations.EncodeFollowsTheFormula : Prop :=
  ∀ i : Instr, EncodedAs i (match i.opcode with | .move => 1 | .lea => 2 | .push => 3 | .pop => 4)
    (match i.mode with
      | .atomic => 0 | .immediate => 1 | .memoryDest => 2 | .memorySrc => 3
      | .memoryDestInc => 4 | .memorySrcInc => 5 | .memoryDestDec => 6 | .memorySrcDec => 7)

/-- The opcode table's rows, by mask and match, are what the decoder distinguishes: a word decodes to an instruction
only if it meets that instruction's row, and a word that meets a row decodes to an instruction of that row. -/
def Obligations.DecodeSelectsTheTableRow : Prop :=
  ∀ (w : Word) (i : Instr),
    (decode w = .instr i → w &&& i.rowMask = i.rowMatch)
    ∧ (w &&& i.rowMask = i.rowMatch →
        ∃ j, decode w = .instr j ∧ j.opcode = i.opcode ∧ (i.opcode ≠ .lea → j.mode = i.mode))

/-- R58: size patterns 0, 1, 2, 3 are Byte, Word, Dword, Dword, and a word with pattern 3 decodes to the very
instruction of the word with pattern 2 and the same other bits. -/
def Obligations.SizePatternThreeIsDword : Prop :=
  (∀ (w : Word) (i : Instr), decode w = .instr i →
      (w.toNat / 2 ^ 30 = 0 → i.fields.size = .byte) ∧ (w.toNat / 2 ^ 30 = 1 → i.fields.size = .word)
        ∧ (w.toNat / 2 ^ 30 = 2 → i.fields.size = .dword) ∧ (w.toNat / 2 ^ 30 = 3 → i.fields.size = .dword))
    ∧ ∀ (w w' : Word) (i : Instr), w.toNat / 2 ^ 30 = 2 → w'.toNat / 2 ^ 30 = 3 →
        w.toNat % 2 ^ 30 = w'.toNat % 2 ^ 30 → decode w = .instr i → decode w' = .instr i

/-- Bits 13:11 are not read (the spec's decision D3): two words that differ in them alone decode to the same
instruction. -/
def Obligations.UnreadBitsDoNotDecode : Prop :=
  ∀ (w w' : Word) (i : Instr), w &&& 0xFFFFC7FF#32 = w' &&& 0xFFFFC7FF#32 → decode w = .instr i → decode w' = .instr i

/-- An instruction's effect depends on the fields the spec's table marks used and on no other (the spec's decisions
D4, D16 and D34): two instructions of one row whose used fields agree act alike on every state. -/
def Obligations.IgnoredFieldsHaveNoEffect : Prop :=
  ∀ (i j : Instr) (s : State), i.opcode = j.opcode → (i.opcode ≠ .lea → i.mode = j.mode) →
    (i.usesDest = true → i.fields.dest = j.fields.dest) →
    (i.usesSrc = true → i.fields.src = j.fields.src) →
    (i.usesSize = true → i.fields.size = j.fields.size) →
    exec i s = exec j s

/-! ## Memory -/

/-- R31: a read in range is the big-endian value of its bytes, zero-extended, and goes on from the same state; a read
out of range raises `MemoryBounds`. -/
def Obligations.MemReadIsBigEndian : Prop :=
  ∀ (s : State) (a : Word) (sz : OperandSize) (k : Word → Result),
    (a.toNat + sz.bytes ≤ s.mem.size →
      ∃ v, s.mem.read a sz = some v ∧ withLoad s a sz k = k v
        ∧ v.toNat = match sz with
          | .byte => (s.mem.readByte a.toNat).toNat
          | .word => (s.mem.readByte a.toNat).toNat * 2 ^ 8 + (s.mem.readByte (a.toNat + 1)).toNat
          | .dword => (s.mem.readByte a.toNat).toNat * 2 ^ 24 + (s.mem.readByte (a.toNat + 1)).toNat * 2 ^ 16
              + (s.mem.readByte (a.toNat + 2)).toNat * 2 ^ 8 + (s.mem.readByte (a.toNat + 3)).toNat)
    ∧ (s.mem.size < a.toNat + sz.bytes → withLoad s a sz k = .next (s.haltedWith (.memoryBounds a sz.bytes)))

/-- A write in range stores the low bytes of the value, most significant first, and no other byte changes; whether
the value was truncated makes no difference (the spec's derived clause); out of range it raises `MemoryBounds` and
writes nothing (the spec's decision D10). -/
def Obligations.MemWriteStoresLowBytes : Prop :=
  ∀ (s : State) (a : Word) (sz : OperandSize) (v : Word) (k : State → Result),
    (a.toNat + sz.bytes ≤ s.mem.size →
      ∃ m, s.mem.write a sz v = some m ∧ s.mem.write a sz (sz.trunc v) = some m
        ∧ withStore s a sz v k = k { s with mem := m }
        ∧ HoldsBigEndian m a.toNat sz.bytes v ∧ SameOutside s.mem m a.toNat sz.bytes)
    ∧ (s.mem.size < a.toNat + sz.bytes → withStore s a sz v k = .next (s.haltedWith (.memoryBounds a sz.bytes)))

/-- A mixed-width access sees plain byte memory (the spec derives this from its two primitives): what a dword write
left is read back whole, by halves and by bytes. -/
def Obligations.MixedWidthReadsSeeBytes : Prop :=
  ∀ (m m' : Memory) (a v : Word), m.size ≤ 2 ^ 32 → m.write a .dword v = some m' →
    m'.read a .dword = some v
      ∧ m'.read a .word = some (v >>> 16) ∧ m'.read (a + 2) .word = some (v &&& 0xFFFF#32)
      ∧ m'.read a .byte = some (v >>> 24) ∧ m'.read (a + 1) .byte = some (v >>> 16 &&& 0xFF#32)
      ∧ m'.read (a + 2) .byte = some (v >>> 8 &&& 0xFF#32) ∧ m'.read (a + 3) .byte = some (v &&& 0xFF#32)

/-- Memory is its bytes: two memories in canonical form with the same capacity and the same bytes are equal data
(the model's own form of memory, log 7). -/
def Obligations.CanonicalMemoriesAreTheirBytes : Prop :=
  ∀ m m' : Memory, m.wf → m'.wf → m.size = m'.size → (∀ a, m.readByte a = m'.readByte a) → m = m'

/-- R19: truncation masks to 8, 16 or 32 bits; the upper bits of the result are zero. -/
def Obligations.TruncationMasks : Prop :=
  ∀ v : Word, OperandSize.byte.trunc v = v &&& 0x000000FF#32 ∧ OperandSize.word.trunc v = v &&& 0x0000FFFF#32
    ∧ OperandSize.dword.trunc v = v
    ∧ (∀ i, 8 ≤ i → (OperandSize.byte.trunc v).getLsbD i = false)
    ∧ (∀ i, 16 ≤ i → (OperandSize.word.trunc v).getLsbD i = false)

/-! ## Move -/

/-- R71: Move Atomic completes on every running core; what it writes, and that it changes nothing else. -/
def Obligations.MoveAtomicResult : Prop :=
  ∀ (f : Fields) (s : State), s.run = .running →
    EncodedAs (.moveAtomic f) 0x01 0
    ∧ ∃ t, exec (.moveAtomic f) s = .next t
      ∧ OneRegSet s t f.dest (f.size.trunc (s.readReg f.src)) ∧ t.last = f.size.trunc (s.readReg f.src)
      ∧ FlagsFrom s t (f.size.trunc (s.readReg f.src))
      ∧ SameMemory s t ∧ t.pc = s.pc ∧ t.run = .running

/-- R72: Move Immediate loads all 32 bits of the operand word at `pc + 4` (modulo 2^32) whatever the size and source
fields, and leaves `pc` on that word; its only fault is the operand word out of range, which changes nothing. -/
def Obligations.MoveImmediateResult : Prop :=
  ∀ (f : Fields) (s : State), s.run = .running →
    EncodedAs (.moveImmediate f) 0x01 1
    ∧ ((s.pc + 4).toNat + 4 ≤ s.mem.size →
      ∃ t, exec (.moveImmediate f) s = .next t
        ∧ OneRegSet s t f.dest (s.mem.readSized (s.pc + 4).toNat .dword)
        ∧ t.last = s.mem.readSized (s.pc + 4).toNat .dword
        ∧ FlagsFrom s t (s.mem.readSized (s.pc + 4).toNat .dword)
        ∧ SameMemory s t ∧ t.pc = s.pc + 4 ∧ t.run = .running)
    ∧ (s.mem.size < (s.pc + 4).toNat + 4 →
        exec (.moveImmediate f) s = .next (s.haltedWith (.memoryBounds (s.pc + 4) 4)))

/-- R73: Move MemoryDest stores the low bytes of the source register at the address in the destination register,
writes no register, and computes the flags from what was last written before it. -/
def Obligations.MoveMemoryDestResult : Prop :=
  ∀ (f : Fields) (s : State), s.run = .running →
    EncodedAs (.moveMemoryDest f) 0x01 2
    ∧ ((s.readReg f.dest).toNat + f.size.bytes ≤ s.mem.size →
      ∃ t, exec (.moveMemoryDest f) s = .next t
        ∧ HoldsBigEndian t.mem (s.readReg f.dest).toNat f.size.bytes (f.size.trunc (s.readReg f.src))
        ∧ SameOutside s.mem t.mem (s.readReg f.dest).toNat f.size.bytes
        ∧ SameRegs s t ∧ t.last = s.last ∧ FlagsFrom s t s.last ∧ t.pc = s.pc ∧ t.run = .running)
    ∧ (s.mem.size < (s.readReg f.dest).toNat + f.size.bytes →
        exec (.moveMemoryDest f) s = .next (s.haltedWith (.memoryBounds (s.readReg f.dest) f.size.bytes)))

/-- R74: Move MemorySrc loads the zero-extended value at the address in the source register. -/
def Obligations.MoveMemorySrcResult : Prop :=
  ∀ (f : Fields) (s : State), s.run = .running →
    EncodedAs (.moveMemorySrc f) 0x01 3
    ∧ ((s.readReg f.src).toNat + f.size.bytes ≤ s.mem.size →
      ∃ t, exec (.moveMemorySrc f) s = .next t
        ∧ OneRegSet s t f.dest (s.mem.readSized (s.readReg f.src).toNat f.size)
        ∧ t.last = s.mem.readSized (s.readReg f.src).toNat f.size
        ∧ FlagsFrom s t (s.mem.readSized (s.readReg f.src).toNat f.size)
        ∧ SameMemory s t ∧ t.pc = s.pc ∧ t.run = .running)
    ∧ (s.mem.size < (s.readReg f.src).toNat + f.size.bytes →
        exec (.moveMemorySrc f) s = .next (s.haltedWith (.memoryBounds (s.readReg f.src) f.size.bytes)))

/-- Move MemoryDestInc stores like MemoryDest, then adds the size to the pointer modulo 2^32; the flags are those of
the new pointer (the spec's decision D26). -/
def Obligations.MoveMemoryDestIncResult : Prop :=
  ∀ (f : Fields) (s : State), s.run = .running →
    EncodedAs (.moveMemoryDestInc f) 0x01 4
    ∧ ((s.readReg f.dest).toNat + f.size.bytes ≤ s.mem.size →
      ∃ t, exec (.moveMemoryDestInc f) s = .next t
        ∧ HoldsBigEndian t.mem (s.readReg f.dest).toNat f.size.bytes (f.size.trunc (s.readReg f.src))
        ∧ SameOutside s.mem t.mem (s.readReg f.dest).toNat f.size.bytes
        ∧ OneRegSet s t f.dest (s.readReg f.dest + BitVec.ofNat 32 f.size.bytes)
        ∧ t.last = s.readReg f.dest + BitVec.ofNat 32 f.size.bytes
        ∧ FlagsFrom s t (s.readReg f.dest + BitVec.ofNat 32 f.size.bytes) ∧ t.pc = s.pc ∧ t.run = .running)
    ∧ (s.mem.size < (s.readReg f.dest).toNat + f.size.bytes →
        exec (.moveMemoryDestInc f) s = .next (s.haltedWith (.memoryBounds (s.readReg f.dest) f.size.bytes)))

/-- Move MemorySrcInc loads like MemorySrc, then adds the size to the source register, re-read after the load's write
(the spec's decision D33): where both are one register it ends as the loaded value plus the size. The flags are those
of the new pointer (D26). -/
def Obligations.MoveMemorySrcIncResult : Prop :=
  ∀ (f : Fields) (s : State), s.run = .running →
    EncodedAs (.moveMemorySrcInc f) 0x01 5
    ∧ ((s.readReg f.src).toNat + f.size.bytes ≤ s.mem.size →
      ∃ t p, exec (.moveMemorySrcInc f) s = .next t
        ∧ p = (if f.src = f.dest then s.mem.readSized (s.readReg f.src).toNat f.size else s.readReg f.src)
            + BitVec.ofNat 32 f.size.bytes
        ∧ (∀ q, t.readReg q = if q = f.src then p
            else if q = f.dest then s.mem.readSized (s.readReg f.src).toNat f.size else s.readReg q)
        ∧ t.last = p ∧ FlagsFrom s t p ∧ SameMemory s t ∧ t.pc = s.pc ∧ t.run = .running)
    ∧ (s.mem.size < (s.readReg f.src).toNat + f.size.bytes →
        exec (.moveMemorySrcInc f) s = .next (s.haltedWith (.memoryBounds (s.readReg f.src) f.size.bytes)))

/-- Move MemoryDestDec stores at the undecremented address, then subtracts the size from the pointer modulo 2^32; the
flags are those of the new pointer (the spec's decision D26). -/
def Obligations.MoveMemoryDestDecResult : Prop :=
  ∀ (f : Fields) (s : State), s.run = .running →
    EncodedAs (.moveMemoryDestDec f) 0x01 6
    ∧ ((s.readReg f.dest).toNat + f.size.bytes ≤ s.mem.size →
      ∃ t, exec (.moveMemoryDestDec f) s = .next t
        ∧ HoldsBigEndian t.mem (s.readReg f.dest).toNat f.size.bytes (f.size.trunc (s.readReg f.src))
        ∧ SameOutside s.mem t.mem (s.readReg f.dest).toNat f.size.bytes
        ∧ OneRegSet s t f.dest (s.readReg f.dest - BitVec.ofNat 32 f.size.bytes)
        ∧ t.last = s.readReg f.dest - BitVec.ofNat 32 f.size.bytes
        ∧ FlagsFrom s t (s.readReg f.dest - BitVec.ofNat 32 f.size.bytes) ∧ t.pc = s.pc ∧ t.run = .running)
    ∧ (s.mem.size < (s.readReg f.dest).toNat + f.size.bytes →
        exec (.moveMemoryDestDec f) s = .next (s.haltedWith (.memoryBounds (s.readReg f.dest) f.size.bytes)))

/-- Move MemorySrcDec loads at the undecremented address, then subtracts the size from the source register, re-read
after the load's write (the spec's decision D33); the flags are those of the new pointer (D26). -/
def Obligations.MoveMemorySrcDecResult : Prop :=
  ∀ (f : Fields) (s : State), s.run = .running →
    EncodedAs (.moveMemorySrcDec f) 0x01 7
    ∧ ((s.readReg f.src).toNat + f.size.bytes ≤ s.mem.size →
      ∃ t p, exec (.moveMemorySrcDec f) s = .next t
        ∧ p = (if f.src = f.dest then s.mem.readSized (s.readReg f.src).toNat f.size else s.readReg f.src)
            - BitVec.ofNat 32 f.size.bytes
        ∧ (∀ q, t.readReg q = if q = f.src then p
            else if q = f.dest then s.mem.readSized (s.readReg f.src).toNat f.size else s.readReg q)
        ∧ t.last = p ∧ FlagsFrom s t p ∧ SameMemory s t ∧ t.pc = s.pc ∧ t.run = .running)
    ∧ (s.mem.size < (s.readReg f.src).toNat + f.size.bytes →
        exec (.moveMemorySrcDec f) s = .next (s.haltedWith (.memoryBounds (s.readReg f.src) f.size.bytes)))

/-- R70: what all eight Moves share. The fields' places; the offset and bits 13:11 are ignored; a Move that completes
ends with the flag update, which takes the flags from the last-written cache; the only fault is `MemoryBounds`, and it
changes nothing. -/
def Obligations.EveryMoveEndsWithTheFlagUpdate : Prop :=
  ∀ i : Instr, i.opcode = .move →
    EncodedAs i 0x01 i.mode.code.toNat
    ∧ (∀ x : BitVec 3, decode (encode i ||| (x.setWidth 32 <<< 11)) = .instr i)
    ∧ ∀ s : State, s.run = .running →
      (∀ j : Instr, j.opcode = .move → j.mode = i.mode → j.fields.dest = i.fields.dest → j.fields.src = i.fields.src →
        j.fields.size = i.fields.size → exec j s = exec i s)
      ∧ ∃ t, exec i s = .next t
        ∧ ((t.run = .running ∧ FlagsFrom s t t.last) ∨ ∃ a n, t = s.haltedWith (.memoryBounds a n))

/-! ## Lea, Push, Pop -/

/-- Lea loads the operand word into an address register and leaves the flags; the mode, source and size fields select
nothing (the spec's decision D16). A data register as destination raises `PreconditionViolation`, tested before the
operand word (D17). -/
def Obligations.LeaResult : Prop :=
  ∀ (m : Mode) (f : Fields) (s : State), s.run = .running →
    EncodedAs (.lea m f) 0x02 m.code.toNat
    ∧ (16 ≤ f.dest.val → (s.pc + 4).toNat + 4 ≤ s.mem.size →
      ∃ t, exec (.lea m f) s = .next t
        ∧ OneRegSet s t f.dest (s.mem.readSized (s.pc + 4).toNat .dword)
        ∧ t.last = s.mem.readSized (s.pc + 4).toNat .dword
        ∧ t.sr = s.sr ∧ SameMemory s t ∧ t.pc = s.pc + 4 ∧ t.run = .running)
    ∧ (f.dest.val < 16 → exec (.lea m f) s = .next (s.haltedWith (.preconditionViolation f.dest)))
    ∧ (16 ≤ f.dest.val → s.mem.size < (s.pc + 4).toNat + 4 →
        exec (.lea m f) s = .next (s.haltedWith (.memoryBounds (s.pc + 4) 4)))

/-- Push Atomic stores the low bytes of the source register (the spec's decision D18) at the stack pointer, then
subtracts the size from it; no flag changes. -/
def Obligations.PushAtomicResult : Prop :=
  ∀ (f : Fields) (s : State), s.run = .running →
    EncodedAs (.pushAtomic f) 0x03 0
    ∧ ((s.readReg 31).toNat + f.size.bytes ≤ s.mem.size →
      ∃ t, exec (.pushAtomic f) s = .next t
        ∧ HoldsBigEndian t.mem (s.readReg 31).toNat f.size.bytes (f.size.trunc (s.readReg f.src))
        ∧ SameOutside s.mem t.mem (s.readReg 31).toNat f.size.bytes
        ∧ OneRegSet s t 31 (s.readReg 31 - BitVec.ofNat 32 f.size.bytes)
        ∧ t.last = s.readReg 31 - BitVec.ofNat 32 f.size.bytes
        ∧ t.sr = s.sr ∧ t.pc = s.pc ∧ t.run = .running)
    ∧ (s.mem.size < (s.readReg 31).toNat + f.size.bytes →
        exec (.pushAtomic f) s = .next (s.haltedWith (.memoryBounds (s.readReg 31) f.size.bytes)))

/-- Push Immediate (the spec's decision D19): the low bytes of the operand word go to the stack; the operand word's
bounds fault is reported before the stack's, and either leaves `pc` where it was. -/
def Obligations.PushImmediateResult : Prop :=
  ∀ (f : Fields) (s : State), s.run = .running →
    EncodedAs (.pushImmediate f) 0x03 1
    ∧ ((s.pc + 4).toNat + 4 ≤ s.mem.size → (s.readReg 31).toNat + f.size.bytes ≤ s.mem.size →
      ∃ t, exec (.pushImmediate f) s = .next t
        ∧ HoldsBigEndian t.mem (s.readReg 31).toNat f.size.bytes
            (f.size.trunc (s.mem.readSized (s.pc + 4).toNat .dword))
        ∧ SameOutside s.mem t.mem (s.readReg 31).toNat f.size.bytes
        ∧ OneRegSet s t 31 (s.readReg 31 - BitVec.ofNat 32 f.size.bytes)
        ∧ t.last = s.readReg 31 - BitVec.ofNat 32 f.size.bytes
        ∧ t.sr = s.sr ∧ t.pc = s.pc + 4 ∧ t.run = .running)
    ∧ (s.mem.size < (s.pc + 4).toNat + 4 →
        exec (.pushImmediate f) s = .next (s.haltedWith (.memoryBounds (s.pc + 4) 4)))
    ∧ ((s.pc + 4).toNat + 4 ≤ s.mem.size → s.mem.size < (s.readReg 31).toNat + f.size.bytes →
        exec (.pushImmediate f) s = .next (s.haltedWith (.memoryBounds (s.readReg 31) f.size.bytes)))

/-- Push in modes 2 to 7 has no meaning in the spec: it raises `UnimplementedMode` and changes nothing else (the
spec's decision D20). -/
def Obligations.PushMemoryModesHalt : Prop :=
  ∀ (f : Fields) (s : State), s.run = .running →
    exec (.pushMemoryDest f) s = .next (s.haltedWith (.unimplementedMode .push .memoryDest))
    ∧ exec (.pushMemorySrc f) s = .next (s.haltedWith (.unimplementedMode .push .memorySrc))
    ∧ exec (.pushMemoryDestInc f) s = .next (s.haltedWith (.unimplementedMode .push .memoryDestInc))
    ∧ exec (.pushMemorySrcInc f) s = .next (s.haltedWith (.unimplementedMode .push .memorySrcInc))
    ∧ exec (.pushMemoryDestDec f) s = .next (s.haltedWith (.unimplementedMode .push .memoryDestDec))
    ∧ exec (.pushMemorySrcDec f) s = .next (s.haltedWith (.unimplementedMode .push .memorySrcDec))

/-- Pop Atomic loads the zero-extended value at the stack pointer (the spec's decision D22), adds the size to the stack
pointer, then writes the destination (D35): a Pop into A15 ends with the popped value. No flag changes. -/
def Obligations.PopAtomicResult : Prop :=
  ∀ (f : Fields) (s : State), s.run = .running →
    EncodedAs (.popAtomic f) 0x04 0
    ∧ ((s.readReg 31).toNat + f.size.bytes ≤ s.mem.size →
      ∃ t, exec (.popAtomic f) s = .next t
        ∧ (∀ q, t.readReg q = if q = f.dest then s.mem.readSized (s.readReg 31).toNat f.size
            else if q = 31 then s.readReg 31 + BitVec.ofNat 32 f.size.bytes else s.readReg q)
        ∧ t.last = s.mem.readSized (s.readReg 31).toNat f.size
        ∧ t.sr = s.sr ∧ SameMemory s t ∧ t.pc = s.pc ∧ t.run = .running)
    ∧ (s.mem.size < (s.readReg 31).toNat + f.size.bytes →
        exec (.popAtomic f) s = .next (s.haltedWith (.memoryBounds (s.readReg 31) f.size.bytes)))

/-- Pop in modes 1 to 7 has no meaning in the spec: it raises `UnimplementedMode` and changes nothing else, `pc`
included (the spec's decisions D20 and D21). -/
def Obligations.PopOtherModesHalt : Prop :=
  ∀ (f : Fields) (s : State), s.run = .running →
    exec (.popImmediate f) s = .next (s.haltedWith (.unimplementedMode .pop .immediate))
    ∧ exec (.popMemoryDest f) s = .next (s.haltedWith (.unimplementedMode .pop .memoryDest))
    ∧ exec (.popMemorySrc f) s = .next (s.haltedWith (.unimplementedMode .pop .memorySrc))
    ∧ exec (.popMemoryDestInc f) s = .next (s.haltedWith (.unimplementedMode .pop .memoryDestInc))
    ∧ exec (.popMemorySrcInc f) s = .next (s.haltedWith (.unimplementedMode .pop .memorySrcInc))
    ∧ exec (.popMemoryDestDec f) s = .next (s.haltedWith (.unimplementedMode .pop .memoryDestDec))
    ∧ exec (.popMemorySrcDec f) s = .next (s.haltedWith (.unimplementedMode .pop .memorySrcDec))

/-- Push then Pop of one size restores the stack pointer but loads the bytes below the pushed value, which the Push did
not write: the two are no inverses. -/
def Obligations.PushThenPopIsNoInverse : Prop :=
  ∀ (f g : Fields) (s : State), s.run = .running → g.size = f.size → g.dest ≠ 31 →
    (s.readReg 31).toNat + f.size.bytes ≤ s.mem.size →
    (s.readReg 31 - BitVec.ofNat 32 f.size.bytes).toNat + f.size.bytes ≤ s.mem.size →
    ∃ t u, exec (.pushAtomic f) s = .next t ∧ exec (.popAtomic g) t = .next u
      ∧ t.readReg 31 = s.readReg 31 - BitVec.ofNat 32 f.size.bytes
      ∧ u.readReg 31 = s.readReg 31
      ∧ u.readReg g.dest = s.mem.readSized (s.readReg 31 - BitVec.ofNat 32 f.size.bytes).toNat f.size

/-! ## Frames: what a next state leaves unchanged, whether the instruction completed or faulted -/

/-- Move Atomic, Move Immediate and Move MemorySrc change no register but the destination, no byte of memory, and no
bit of the status register but Z and N. -/
def Obligations.RegisterMoveFrame : Prop :=
  ∀ (f : Fields) (s t : State) (i : Instr),
    i = .moveAtomic f ∨ i = .moveImmediate f ∨ i = .moveMemorySrc f → exec i s = .next t →
    (∀ q, q ≠ f.dest → t.readReg q = s.readReg q) ∧ SameMemory s t
      ∧ ∀ b, 2 ≤ b → t.sr.getLsbD b = s.sr.getLsbD b

/-- Move MemorySrcInc and MemorySrcDec change no register but the destination and the pointer, no byte of memory, and
no bit of the status register but Z and N; `pc` stays. -/
def Obligations.PointerLoadFrame : Prop :=
  ∀ (f : Fields) (s t : State) (i : Instr),
    i = .moveMemorySrcInc f ∨ i = .moveMemorySrcDec f → exec i s = .next t →
    (∀ q, q ≠ f.dest → q ≠ f.src → t.readReg q = s.readReg q) ∧ SameMemory s t
      ∧ (∀ b, 2 ≤ b → t.sr.getLsbD b = s.sr.getLsbD b) ∧ t.pc = s.pc

/-- Move MemoryDest, MemoryDestInc and MemoryDestDec change no byte of memory outside the size's bytes at the address
the destination register held, no register but, in the last two, that pointer, and no bit of the status register but
Z and N; MemoryDest leaves the last-written cache too; `pc` stays. -/
def Obligations.StoringMoveFrame : Prop :=
  ∀ (f : Fields) (s t : State) (i : Instr),
    i = .moveMemoryDest f ∨ i = .moveMemoryDestInc f ∨ i = .moveMemoryDestDec f → exec i s = .next t →
    SameOutside s.mem t.mem (s.readReg f.dest).toNat f.size.bytes
      ∧ (∀ q, q ≠ f.dest → t.readReg q = s.readReg q)
      ∧ (i = .moveMemoryDest f → t.readReg f.dest = s.readReg f.dest ∧ t.last = s.last)
      ∧ (∀ b, 2 ≤ b → t.sr.getLsbD b = s.sr.getLsbD b) ∧ t.pc = s.pc

/-- Lea changes no register but the destination, nothing of the status register and no byte of memory. -/
def Obligations.LeaFrame : Prop :=
  ∀ (m : Mode) (f : Fields) (s t : State), exec (.lea m f) s = .next t →
    (∀ q, q ≠ f.dest → t.readReg q = s.readReg q) ∧ t.sr = s.sr ∧ SameMemory s t

/-- Push Atomic and Push Immediate change no register but the stack pointer, nothing of the status register, and no
byte of memory outside the size's bytes at the address the stack pointer held. -/
def Obligations.PushFrame : Prop :=
  ∀ (f : Fields) (s t : State) (i : Instr), i = .pushAtomic f ∨ i = .pushImmediate f → exec i s = .next t →
    (∀ q, q ≠ 31 → t.readReg q = s.readReg q) ∧ t.sr = s.sr
      ∧ SameOutside s.mem t.mem (s.readReg 31).toNat f.size.bytes

/-- Pop Atomic changes no register but the stack pointer and the destination, nothing of the status register, no byte
of memory, and not `pc`. -/
def Obligations.PopFrame : Prop :=
  ∀ (f : Fields) (s t : State), exec (.popAtomic f) s = .next t →
    (∀ q, q ≠ 31 → q ≠ f.dest → t.readReg q = s.readReg q) ∧ t.sr = s.sr ∧ SameMemory s t ∧ t.pc = s.pc

/-! ## Whole-machine rules -/

/-- An instruction reports exactly the fault the spec's tables give it, in the spec's order (its decisions D10, D17 and
D20), and with no such fault it completes on a running core: every instruction runs. -/
def Obligations.ExecFaultsExactlyAsTabled : Prop :=
  ∀ (i : Instr) (s : State), s.run = .running →
    (∀ c, i.faultOf s = some c → exec i s = .next (s.haltedWith c))
    ∧ (i.faultOf s = none → ∃ t, exec i s = .next t ∧ t.run = .running)

/-- The order of faults in one instruction cycle (the spec's decisions D9 and D17): the fetch's bounds, the unrecognized
opcode, then the instruction's own; with none of them the cycle completes. -/
def Obligations.StepFaultOrder : Prop :=
  ∀ s : State, s.run = .running →
    (¬ s.canFetch → step s = .next (s.haltedWith (.memoryBounds s.pc 4)))
    ∧ (s.canFetch → ∀ w, decode s.fetchedWord = .unrecognized w →
        step s = .next (s.haltedWith (.unrecognizedOpcode s.fetchedWord)))
    ∧ (s.canFetch → ∀ i, decode s.fetchedWord = .instr i →
        (∀ c, i.faultOf s = some c → step s = .next (s.haltedWith c))
        ∧ (i.faultOf s = none → ∃ t, CompletesStep s t))

/-- A fault is precise (the spec's decision D11): whenever a running core halts, in a cycle or in `execute` alone, the
halted state is the state before with the cause recorded, and nothing else changed. -/
def Obligations.FaultsArePrecise : Prop :=
  ∀ s t : State, s.run = .running → t.isHalted →
    (step s = .next t ∨ ∃ d, execute d s = .next t) → ∃ c, t = s.haltedWith c

/-- R130: a halted core stays halted until reset: no cycle and no `execute` changes anything, however often; a reset
gives a running core. -/
def Obligations.HaltedCoreStaysHalted : Prop :=
  (∀ (s : State) (c : Cause), s.run = .halted c →
    step s = .next s ∧ (∀ d, execute d s = .next s) ∧ ∀ k, core.run k s = .next s)
  ∧ ∀ (memSize : Nat) (image : List Byte) (pc : Word) (s : State), launch memSize image pc = some s → s.run = .running

/-- R126: `UnimplementedMode` is raised by Push in modes 2 to 7 and Pop in modes 1 to 7, always, and by no other
instruction in any state. -/
def Obligations.UnimplementedModeRaisedByThirteen : Prop :=
  ∀ (i : Instr) (s : State), s.run = .running →
    ((i.opcode = .push ∧ i.mode ≠ .atomic ∧ i.mode ≠ .immediate) ∨ (i.opcode = .pop ∧ i.mode ≠ .atomic) →
      exec i s = .next (s.haltedWith (.unimplementedMode i.opcode i.mode)))
    ∧ ∀ t op m, exec i s = .next t → t.run = .halted (.unimplementedMode op m) →
      (i.opcode = .push ∧ i.mode ≠ .atomic ∧ i.mode ≠ .immediate) ∨ (i.opcode = .pop ∧ i.mode ≠ .atomic)

/-- R122: `decode` answers an instruction or the marker with the raw word and never faults; executing the marker raises
`UnrecognizedOpcode`, and a cycle that fetches such a word always does. -/
def Obligations.UnrecognizedWordHalts : Prop :=
  (∀ w : Word, (∃ i, decode w = .instr i) ∨ decode w = .unrecognized w)
    ∧ (∀ (w : Word) (s : State), s.run = .running →
        execute (.unrecognized w) s = .next (s.haltedWith (.unrecognizedOpcode w)))
    ∧ ∀ (w : Word) (s : State), s.run = .running → s.canFetch → decode s.fetchedWord = .unrecognized w →
        step s = .next (s.haltedWith (.unrecognizedOpcode s.fetchedWord))

/-- R111: a running core fetches the four big-endian bytes at `pc`, wherever `pc` points, from memory as it stands, and
runs what they decode to; with `pc + 4 > MEM_SIZE` it halts with `MemoryBounds(pc, 4)` and nothing else changes. -/
def Obligations.FetchReadsTheWordAtPc : Prop :=
  ∀ s : State, s.run = .running →
    (s.pc.toNat + 4 ≤ s.mem.size →
      ∃ w : Word, w.toNat = (s.mem.readByte s.pc.toNat).toNat * 2 ^ 24 + (s.mem.readByte (s.pc.toNat + 1)).toNat * 2 ^ 16
          + (s.mem.readByte (s.pc.toNat + 2)).toNat * 2 ^ 8 + (s.mem.readByte (s.pc.toNat + 3)).toNat
        ∧ step s = advance (execute (decode w) s))
    ∧ (s.mem.size < s.pc.toNat + 4 → step s = .next (s.haltedWith (.memoryBounds s.pc 4)))

/-- A step runs the decoded instruction: when the bytes at `pc` decode to `i`, `step` is `exec i` followed, where the
core still runs, by `pc <- pc + 4` (the spec's decision D8). -/
def Obligations.StepRunsTheDecodedInstruction : Prop :=
  ∀ (s t : State) (i : Instr), s.run = .running → s.canFetch → decode s.fetchedWord = .instr i → exec i s = .next t →
    step s = .next (if t.run = .running then t.setPc (t.pc + 4) else t)

/-- A completed cycle moves `pc` by 8, modulo 2^32, for an instruction with an operand word (Move Immediate, Lea, Push
Immediate) and by 4 for every other; `execute` alone moves it by 4 and by 0. -/
def Obligations.PcMovesByTheInstructionLength : Prop :=
  ∀ (i : Instr) (s t : State), s.run = .running → t.run = .running →
    (exec i s = .next t → t.pc = s.pc + if i.opcode = .lea ∨ (i.opcode = .move ∧ i.mode = .immediate)
      ∨ (i.opcode = .push ∧ i.mode = .immediate) then 4 else 0)
    ∧ (step s = .next t → decode s.fetchedWord = .instr i →
        t.pc = s.pc + if i.opcode = .lea ∨ (i.opcode = .move ∧ i.mode = .immediate)
          ∨ (i.opcode = .push ∧ i.mode = .immediate) then 8 else 4)

/-- Only a Move that completes writes the status register (the spec's decision D27), and then Z and N alone, from the
last-written cache as it stands at its end. -/
def Obligations.OnlyMoveWritesFlags : Prop :=
  ∀ (i : Instr) (s t : State), exec i s = .next t →
    (i.opcode ≠ .move → t.sr = s.sr)
    ∧ (t.isHalted → t.sr = s.sr)
    ∧ (t.run = .running → i.opcode = .move → FlagsFrom s t t.last)

/-- An instruction that completes writes the registers the spec's table lists for it and no other, and the last of
them to be written is what the last-written cache holds (the spec's decisions D26 and D35); one that writes none
leaves the cache. -/
def Obligations.RegistersWrittenAsTabled : Prop :=
  ∀ (i : Instr) (s t : State), exec i s = .next t → s.run = .running → t.run = .running →
    (∀ q, q ∉ i.writes → t.readReg q = s.readReg q)
    ∧ (match i.writes.getLast? with
        | some r => t.last = t.readReg r
        | none => t.last = s.last)

/-- An instruction reads the registers the spec's table lists for it and no other: another content of a register it
neither reads nor writes changes nothing but that register. -/
def Obligations.RegistersReadAsTabled : Prop :=
  ∀ (i : Instr) (s t : State) (q : Reg) (v : Word), q ∉ i.reads → q ∉ i.writes → exec i s = .next t →
    exec i (s.pokeReg q v) = .next (t.pokeReg q v)

/-- No instruction reads the status register: a run with another status register differs in it alone. -/
def Obligations.StatusRegisterIsNeverRead : Prop :=
  ∀ (s t : State) (v : Word), step s = .next t → ∃ v', step (s.withSr v) = .next (t.withSr v')

/-- The last-written cache is read by the flag update alone: a cycle with another cache differs in the cache and the
status register alone. -/
def Obligations.LastIsReadByTheFlagsOnly : Prop :=
  ∀ (s t : State) (v : Word), step s = .next t →
    ∃ l' v', step (s.withLast v) = .next ((t.withLast l').withSr v')

/-- A store into code is seen by the next fetch of it (the spec's decision D30): after a Dword Move MemoryDest through
register `d`, a cycle at that address runs the stored word. -/
def Obligations.StoreIsSeenByFetch : Prop :=
  ∀ (f : Fields) (s t : State), s.run = .running → f.size = .dword →
    (s.readReg f.dest).toNat + 4 ≤ s.mem.size → exec (.moveMemoryDest f) s = .next t →
    step (t.setPc (s.readReg f.dest))
      = advance (execute (decode (s.readReg f.src)) (t.setPc (s.readReg f.dest)))

/-! ## Reset, invariant, termination -/

/-- The state after reset: registers, last-written cache, status register and memory zero (the spec's decision D14),
running, with the default capacity; an empty image and `pc` 0 are the model's choice (log 1). -/
def Obligations.ResetLeavesZeros : Prop :=
  (∀ r, State.reset.readReg r = 0) ∧ State.reset.last = 0 ∧ State.reset.sr = 0 ∧ State.reset.run = .running
    ∧ State.reset.mem.size = 134217728 ∧ (∀ a, State.reset.mem.readByte a = 0) ∧ State.reset.pc = 0
    ∧ launch 134217728 [] 0 = some State.reset

/-- `reset(MEM_SIZE, IMAGE, INITIAL_PC)`: for arguments that meet its requirement, IMAGE at address 0, everything else
zero (the spec's decision D14), `pc` at INITIAL_PC and the core running; for others the model has no reset state
(log 8). -/
def Obligations.LaunchPlacesTheImage : Prop :=
  ∀ (memSize : Nat) (image : List Byte) (pc : Word),
    (8 ≤ memSize ∧ memSize ≤ 2 ^ 32 ∧ image.length ≤ memSize →
      ∃ s, launch memSize image pc = some s ∧ s.mem.size = memSize ∧ s.pc = pc ∧ s.run = .running
        ∧ (∀ r, s.readReg r = 0) ∧ s.last = 0 ∧ s.sr = 0
        ∧ (∀ (a : Nat) (h : a < image.length), s.mem.readByte a = image[a])
        ∧ ∀ a, image.length ≤ a → s.mem.readByte a = 0)
    ∧ (¬ (8 ≤ memSize ∧ memSize ≤ 2 ^ 32 ∧ image.length ≤ memSize) → launch memSize image pc = none)

/-- The invariant holds after reset. -/
def Obligations.InvariantHoldsAtReset : Prop := Inv State.reset

/-- The invariant holds after a reset with any arguments that meet its requirement. -/
def Obligations.InvariantHoldsAtLaunch : Prop :=
  ∀ (memSize : Nat) (image : List Byte) (pc : Word) (s : State), launch memSize image pc = some s → Inv s

/-- Every cycle keeps the invariant, from every state that meets it, not only from states a run reaches: memory in
canonical form inside its capacity, the reserved status bits zero, Z and N never both 1, a recorded cause that is so;
and the capacity never changes. -/
def Obligations.StepKeepsTheInvariant : Prop :=
  ∀ s t : State, Inv s → step s = .next t → Inv t ∧ t.mem.size = s.mem.size

/-- Straight-line termination (the spec derives it): with MEM_SIZE below 2^32 a completed cycle raises `pc` by at least 4
and leaves it at most MEM_SIZE, and every run halts within MEM_SIZE / 4 + 1 cycles. -/
def Obligations.EveryRunHalts : Prop :=
  ∀ s : State, s.mem.size < 2 ^ 32 →
    (∀ t, CompletesStep s t → s.pc.toNat + 4 ≤ t.pc.toNat ∧ t.pc.toNat ≤ s.mem.size)
    ∧ ∃ k, k ≤ s.mem.size / 4 + 1 ∧ ∃ t, core.run k s = .next t ∧ t.isHalted

/-- The host's way to place an instruction (log 6): the word of `i` placed for the next fetch decodes to `i`, and the
next cycle runs `i`. -/
def Obligations.PlacedWordRunsNext : Prop :=
  ∀ (i : Instr) (s : State), s.run = .running → s.canFetch →
    decodeTableWord 32 (encode i).toNat = some i
    ∧ step (s.withFetchWord 32 (encode i).toNat) = advance (exec i (s.withFetchWord 32 (encode i).toNat))

/-- What a program must arrange for before its first Push (the spec's boot requirement 2, which rests on its decision
D14): at reset A15 is 0, so a first Dword Push stores at addresses 0 to 3 and leaves A15 = 0xFFFFFFFC, and the next
Push halts with `MemoryBounds` at that address. -/
def Obligations.FirstPushAtResetWraps : Prop :=
  ∀ (f g : Fields), f.size = .dword →
    ∃ t, exec (.pushAtomic f) State.reset = .next t ∧ t.run = .running ∧ t.readReg 31 = 0xFFFFFFFC#32
      ∧ SameOutside State.reset.mem t.mem 0 4
      ∧ exec (.pushAtomic g) t = .next (t.haltedWith (.memoryBounds 0xFFFFFFFC#32 g.size.bytes))
end

