-- ==== Sys2Proof/Laws/Decode.lean ====
section
/-! SUPPORT. The words of the decoder and encoder as numbers: each field by division, and the packed word as a sum. -/

namespace Sys2Proof

/-- Concatenation as arithmetic. -/
theorem append_toNat {m n : Nat} (x : BitVec m) (y : BitVec n) : (x ++ y).toNat = x.toNat * 2 ^ n + y.toNat := by
  rw [BitVec.toNat_append, ← Nat.shiftLeft_add_eq_or_of_lt y.isLt, Nat.shiftLeft_eq]

/-- The packed word is R51's formula. -/
theorem packWord_toNat (z : BitVec 2) (f : BitVec 6) (s d : BitVec 5) (m : BitVec 3) (o : BitVec 8) :
    (packWord z f s d m o).toNat
      = o.toNat + m.toNat * 2 ^ 8 + d.toNat * 2 ^ 14 + s.toNat * 2 ^ 19 + f.toNat * 2 ^ 24 + z.toNat * 2 ^ 30 := by
  unfold packWord
  rw [append_toNat, append_toNat, append_toNat, append_toNat, append_toNat, append_toNat, BitVec.toNat_ofNat]
  omega

theorem opcodeField_toNat (w : Word) : (opcodeField w).toNat = w.toNat % 2 ^ 8 := by
  simp [opcodeField, BitVec.extractLsb'_toNat]

theorem modeField_toNat (w : Word) : (modeField w).toNat = w.toNat / 2 ^ 8 % 2 ^ 3 := by
  simp [modeField, BitVec.extractLsb'_toNat, Nat.shiftRight_eq_div_pow]

theorem destField_toNat (w : Word) : (destField w).toNat = w.toNat / 2 ^ 14 % 2 ^ 5 := by
  simp [destField, BitVec.extractLsb'_toNat, Nat.shiftRight_eq_div_pow]

theorem srcField_toNat (w : Word) : (srcField w).toNat = w.toNat / 2 ^ 19 % 2 ^ 5 := by
  simp [srcField, BitVec.extractLsb'_toNat, Nat.shiftRight_eq_div_pow]

theorem offsetField_toNat (w : Word) : (offsetField w).toNat = w.toNat / 2 ^ 24 % 2 ^ 6 := by
  simp [offsetField, BitVec.extractLsb'_toNat, Nat.shiftRight_eq_div_pow]

theorem sizeField_toNat (w : Word) : (sizeField w).toNat = w.toNat / 2 ^ 30 := by
  have := w.isLt
  simp [sizeField, BitVec.extractLsb'_toNat, Nat.shiftRight_eq_div_pow]
  omega

theorem byteOf_toNat (v : Word) (k : Nat) : (byteOf v k).toNat = v.toNat / 2 ^ (8 * k) % 2 ^ 8 := by
  simp [byteOf, BitVec.extractLsb'_toNat, Nat.shiftRight_eq_div_pow]

/-- A word put together from its own bytes. -/
theorem wordOfBytes_byteOf (w : Word) : wordOfBytes (byteOf w 3) (byteOf w 2) (byteOf w 1) (byteOf w 0) = w := by
  apply BitVec.eq_of_toNat_eq
  have := w.isLt
  unfold wordOfBytes
  rw [append_toNat, append_toNat, append_toNat]
  simp only [byteOf_toNat]
  omega

/-- Decoding answers an instruction exactly through the opcode's id and the three extractions. -/
theorem decode_eq_instr {w : Word} {i : Instr} (h : decode w = .instr i) :
    ∃ op, opcodeOfId (opcodeField w) = some op ∧ i = instrOf op (modeOfCode (modeField w)) (fieldsOfWord w) := by
  unfold decode at h
  split at h
  · cases h; exact ⟨_, ‹_›, rfl⟩
  · cases h

/-- The marker carries the word that was decoded (R60). -/
theorem decode_eq_unrecognized {w v : Word} (h : decode w = .unrecognized v) :
    v = w ∧ opcodeOfId (opcodeField w) = none := by
  unfold decode at h
  split at h
  · cases h
  · cases h; exact ⟨rfl, ‹_›⟩

end Sys2Proof
end

