-- ==== Sys2Proof/Laws/State.lean ====
section
/-! SUPPORT. One lemma per field per state update. -/

namespace Sys2Proof.Machine

variable (s : State)

@[simp] theorem writeReg_last (r : Reg) (v : Word) : (s.writeReg r v).last = v := rfl
@[simp] theorem writeReg_pc (r : Reg) (v : Word) : (s.writeReg r v).pc = s.pc := rfl
@[simp] theorem writeReg_sr (r : Reg) (v : Word) : (s.writeReg r v).sr = s.sr := rfl
@[simp] theorem writeReg_mem (r : Reg) (v : Word) : (s.writeReg r v).mem = s.mem := rfl
@[simp] theorem writeReg_run (r : Reg) (v : Word) : (s.writeReg r v).run = s.run := rfl

@[simp] theorem setPc_regs (v : Word) : (s.setPc v).regs = s.regs := rfl
@[simp] theorem setPc_last (v : Word) : (s.setPc v).last = s.last := rfl
@[simp] theorem setPc_pc (v : Word) : (s.setPc v).pc = v := rfl
@[simp] theorem setPc_sr (v : Word) : (s.setPc v).sr = s.sr := rfl
@[simp] theorem setPc_mem (v : Word) : (s.setPc v).mem = s.mem := rfl
@[simp] theorem setPc_run (v : Word) : (s.setPc v).run = s.run := rfl
@[simp] theorem setPc_readReg (v : Word) (q : Reg) : (s.setPc v).readReg q = s.readReg q := rfl

@[simp] theorem updateFlags_regs : s.updateFlags.regs = s.regs := rfl
@[simp] theorem updateFlags_last : s.updateFlags.last = s.last := rfl
@[simp] theorem updateFlags_pc : s.updateFlags.pc = s.pc := rfl
@[simp] theorem updateFlags_mem : s.updateFlags.mem = s.mem := rfl
@[simp] theorem updateFlags_run : s.updateFlags.run = s.run := rfl
@[simp] theorem updateFlags_readReg (q : Reg) : s.updateFlags.readReg q = s.readReg q := rfl

@[simp] theorem withMem_readReg (m : Memory) (q : Reg) : ({ s with mem := m } : State).readReg q = s.readReg q := rfl
@[simp] theorem withRun_readReg (r : RunState) (q : Reg) : ({ s with run := r } : State).readReg q = s.readReg q := rfl
@[simp] theorem withSr_readReg (v : Word) (q : Reg) : (s.withSr v).readReg q = s.readReg q := rfl
@[simp] theorem withLast_readReg (v : Word) (q : Reg) : (s.withLast v).readReg q = s.readReg q := rfl

@[simp] theorem withSr_run (v : Word) : (s.withSr v).run = s.run := rfl
@[simp] theorem withSr_mem (v : Word) : (s.withSr v).mem = s.mem := rfl
@[simp] theorem withSr_pc (v : Word) : (s.withSr v).pc = s.pc := rfl
@[simp] theorem withLast_run (v : Word) : (s.withLast v).run = s.run := rfl
@[simp] theorem withLast_mem (v : Word) : (s.withLast v).mem = s.mem := rfl
@[simp] theorem withLast_pc (v : Word) : (s.withLast v).pc = s.pc := rfl

/-- A register reads as the value last written to it (spec/10_state.md R13, R14). -/
@[simp] theorem writeReg_readReg (r : Reg) (v : Word) (q : Reg) :
    (s.writeReg r v).readReg q = if q = r then v else s.readReg q := by
  by_cases h : q = r
  · subst h; simp [State.readReg, State.writeReg, Vector.get_eq_getElem]
  · have : r.val ≠ q.val := fun e => h (Fin.ext e.symm)
    simp [State.readReg, State.writeReg, Vector.get_eq_getElem, h, Vector.getElem_set_ne, this]

/-- The registers are what reading them gives. -/
theorem regs_ext {s t : State} (h : ∀ q, t.readReg q = s.readReg q) : t.regs = s.regs := by
  apply Vector.ext
  intro i hi
  simpa [State.readReg, Vector.get_eq_getElem] using h ⟨i, hi⟩

/-! ### The pointer adjustments -/

@[simp] theorem incReg_readReg (r : Reg) (sz : OperandSize) (q : Reg) :
    (s.incReg r sz).readReg q = if q = r then s.readReg r + BitVec.ofNat 32 sz.bytes else s.readReg q := by
  simp [State.incReg]
@[simp] theorem incReg_last (r : Reg) (sz : OperandSize) :
    (s.incReg r sz).last = s.readReg r + BitVec.ofNat 32 sz.bytes := rfl
@[simp] theorem incReg_pc (r : Reg) (sz : OperandSize) : (s.incReg r sz).pc = s.pc := rfl
@[simp] theorem incReg_sr (r : Reg) (sz : OperandSize) : (s.incReg r sz).sr = s.sr := rfl
@[simp] theorem incReg_mem (r : Reg) (sz : OperandSize) : (s.incReg r sz).mem = s.mem := rfl
@[simp] theorem incReg_run (r : Reg) (sz : OperandSize) : (s.incReg r sz).run = s.run := rfl

@[simp] theorem decReg_readReg (r : Reg) (sz : OperandSize) (q : Reg) :
    (s.decReg r sz).readReg q = if q = r then s.readReg r - BitVec.ofNat 32 sz.bytes else s.readReg q := by
  simp [State.decReg]
@[simp] theorem decReg_last (r : Reg) (sz : OperandSize) :
    (s.decReg r sz).last = s.readReg r - BitVec.ofNat 32 sz.bytes := rfl
@[simp] theorem decReg_pc (r : Reg) (sz : OperandSize) : (s.decReg r sz).pc = s.pc := rfl
@[simp] theorem decReg_sr (r : Reg) (sz : OperandSize) : (s.decReg r sz).sr = s.sr := rfl
@[simp] theorem decReg_mem (r : Reg) (sz : OperandSize) : (s.decReg r sz).mem = s.mem := rfl
@[simp] theorem decReg_run (r : Reg) (sz : OperandSize) : (s.decReg r sz).run = s.run := rfl

@[simp] theorem toOperandWord_readReg (q : Reg) : s.toOperandWord.readReg q = s.readReg q := rfl
@[simp] theorem toOperandWord_last : s.toOperandWord.last = s.last := rfl
@[simp] theorem toOperandWord_pc : s.toOperandWord.pc = s.pc + 4 := rfl
@[simp] theorem toOperandWord_sr : s.toOperandWord.sr = s.sr := rfl
@[simp] theorem toOperandWord_mem : s.toOperandWord.mem = s.mem := rfl
@[simp] theorem toOperandWord_run : s.toOperandWord.run = s.run := rfl

/-! ### The incrementer -/

@[simp] theorem advancePc_run : s.advancePc.run = s.run := by
  unfold State.advancePc; split <;> simp
@[simp] theorem advancePc_mem : s.advancePc.mem = s.mem := by
  unfold State.advancePc; split <;> simp
@[simp] theorem advancePc_sr : s.advancePc.sr = s.sr := by
  unfold State.advancePc; split <;> simp
@[simp] theorem advancePc_last : s.advancePc.last = s.last := by
  unfold State.advancePc; split <;> simp
@[simp] theorem advancePc_readReg (q : Reg) : s.advancePc.readReg q = s.readReg q := by
  unfold State.advancePc; split <;> simp

theorem advancePc_of_running (h : s.run = .running) : s.advancePc = s.setPc (s.pc + 4) := by
  simp [State.advancePc, h]

theorem advancePc_of_halted {c : Cause} (h : s.run = .halted c) : s.advancePc = s := by
  simp [State.advancePc, h]

end Sys2Proof.Machine
end

