-- ==== Sys2Proof/Laws/Flags.lean ====
section
/-! SUPPORT. The flag update (spec/40_move.md R79). -/

namespace Sys2Proof.Machine

theorem withFlags_z (sr : Word) (z n : Bool) : (withFlags sr z n).getLsbD 0 = z := by
  unfold withFlags
  rw [BitVec.getLsbD_append]
  simp

theorem withFlags_n (sr : Word) (z n : Bool) : (withFlags sr z n).getLsbD 1 = n := by
  unfold withFlags
  rw [BitVec.getLsbD_append, BitVec.getLsbD_append]
  simp

theorem withFlags_other (sr : Word) (z n : Bool) (i : Nat) (h : 2 ≤ i) :
    (withFlags sr z n).getLsbD i = sr.getLsbD i := by
  obtain ⟨j, rfl⟩ := Nat.exists_eq_add_of_le h
  simp only [withFlags, BitVec.getLsbD_append]
  have h1 : ¬ 2 + j < 1 := by omega
  have h2 : ¬ 2 + j - 1 < 1 := by omega
  have h3 : 2 + j - 1 - 1 = j := by omega
  simp only [h1, h2, h3, if_false, BitVec.getLsbD_extractLsb']
  by_cases hj : j < 30
  · simp [hj]
  · simp [hj]
    exact BitVec.getLsbD_of_ge _ _ (by omega)

/-- Everything the flag update says of the status register. -/
theorem updateFlags_flagsFrom (s : State) : FlagsFrom s s.updateFlags s.last := by
  refine ⟨?_, ?_, fun i hi => ?_⟩
  · rw [State.zFlag, State.updateFlags, withFlags_z]; rfl
  · exact withFlags_n ..
  · exact withFlags_other _ _ _ i hi

end Sys2Proof.Machine
end

