-- ==== Sys2Proof/Laws/Memory.lean ====
section
/-! SUPPORT. Memory: read after write, and the canonical form. -/

namespace Sys2Proof.Machine

/-! ### Cells -/

theorem readCells_filter (cells : List Host.Cell) (a b : Nat) :
    readCells (cells.filter fun c => c.1 ≠ a) b = if b = a then Config.unlistedByte else readCells cells b := by
  induction cells with
  | nil => simp [readCells]
  | cons c rest ih =>
    obtain ⟨k, v⟩ := c
    by_cases hk : k = a
    · subst hk
      by_cases hb : b = k
      · subst hb; simpa [readCells] using ih
      · have : ¬ k = b := fun e => hb e.symm
        simpa [readCells, hb, this] using ih
    · by_cases hb : k = b
      · subst hb; simp [readCells, hk]
      · simpa [readCells, hk, hb] using ih

theorem readCells_insertCell (cells : List Host.Cell) (a : Nat) (v : Byte) (b : Nat)
    (h : ∀ c ∈ cells, c.1 ≠ a) :
    readCells (insertCell a v cells) b = if b = a then v else readCells cells b := by
  induction cells with
  | nil =>
    by_cases hb : b = a
    · simp [insertCell, readCells, hb]
    · have : ¬ a = b := fun e => hb e.symm
      simp [insertCell, readCells, hb, this]
  | cons c rest ih =>
    obtain ⟨k, w⟩ := c
    have hka : k ≠ a := h (k, w) (by simp)
    have ih := ih fun c hc => h c (by simp [hc])
    unfold insertCell
    split
    · by_cases hb : k = b
      · subst hb; simp [readCells, hka]
      · simp [readCells, hb, ih]
    · by_cases hb : b = a
      · subst hb; simp [readCells]
      · have : ¬ a = b := fun e => hb e.symm
        simp [readCells, this, hb]

theorem readCells_writeCells (cells : List Host.Cell) (a : Nat) (v : Byte) (b : Nat) :
    readCells (writeCells cells a v) b = if b = a then v else readCells cells b := by
  unfold writeCells
  split
  · rename_i h; rw [readCells_filter, h]
  · rw [readCells_insertCell _ _ _ _ (by simp), readCells_filter]
    split <;> simp_all

/-! ### Bytes -/

@[simp] theorem writeByte_size (m : Memory) (a : Nat) (v : Byte) : (m.writeByte a v).size = m.size := rfl

/-- A byte reads as the value last written to it (spec/20_memory.md R38, spec/10_state.md R22). -/
@[simp] theorem readByte_writeByte (m : Memory) (a : Nat) (v : Byte) (b : Nat) :
    (m.writeByte a v).readByte b = if b = a then v else m.readByte b :=
  readCells_writeCells m.cells a v b

@[simp] theorem writeSized_size (m : Memory) (a : Nat) (v : Word) (sz : OperandSize) :
    (m.writeSized a v sz).size = m.size := by
  cases sz <;> rfl

/-! ### Sized accesses (R31, R32) -/

/-- A sized read as arithmetic on the bytes. -/
theorem readSized_toNat (m : Memory) (a : Nat) (sz : OperandSize) :
    (m.readSized a sz).toNat = match sz with
      | .byte => (m.readByte a).toNat
      | .word => (m.readByte a).toNat * 2 ^ 8 + (m.readByte (a + 1)).toNat
      | .dword => (m.readByte a).toNat * 2 ^ 24 + (m.readByte (a + 1)).toNat * 2 ^ 16
          + (m.readByte (a + 2)).toNat * 2 ^ 8 + (m.readByte (a + 3)).toNat := by
  have h0 := (m.readByte a).isLt
  have h1 := (m.readByte (a + 1)).isLt
  cases sz <;>
    simp only [Memory.readSized, wordOfBytes, halfOfBytes, BitVec.toNat_setWidth, append_toNat] <;> omega

/-- A sized read depends on its own bytes alone. -/
theorem readSized_congr {m m' : Memory} {a : Nat} {sz : OperandSize}
    (h : ∀ k, k < sz.bytes → m'.readByte (a + k) = m.readByte (a + k)) : m'.readSized a sz = m.readSized a sz := by
  cases sz <;> simp only [OperandSize.bytes] at h <;> simp only [Memory.readSized]
  · rw [show m'.readByte a = m.readByte a from h 0 (by omega)]
  · rw [show m'.readByte a = m.readByte a from h 0 (by omega), h 1 (by omega)]
  · rw [show m'.readByte a = m.readByte a from h 0 (by omega), h 1 (by omega), h 2 (by omega), h 3 (by omega)]

/-- What a sized write leaves at its own bytes. -/
theorem writeSized_holds (m : Memory) (a : Nat) (v : Word) (sz : OperandSize) :
    HoldsBigEndian (m.writeSized a v sz) a sz.bytes v := by
  intro k hk
  cases sz <;> simp only [OperandSize.bytes] at hk <;>
    simp only [Memory.writeSized, OperandSize.bytes, readByte_writeByte]
  · obtain rfl : k = 0 := by omega
    simp
  · have : k = 0 ∨ k = 1 := by omega
    rcases this with rfl | rfl <;> simp
  · have : k = 0 ∨ k = 1 ∨ k = 2 ∨ k = 3 := by omega
    rcases this with rfl | rfl | rfl | rfl <;> simp

/-- What a sized write leaves everywhere else. -/
theorem writeSized_outside (m : Memory) (a : Nat) (v : Word) (sz : OperandSize) :
    SameOutside m (m.writeSized a v sz) a sz.bytes := by
  refine ⟨by simp, fun b hb => ?_⟩
  cases sz <;> simp only [OperandSize.bytes] at hb <;> simp only [Memory.writeSized, readByte_writeByte]
  all_goals repeat rw [if_neg (by omega)]

/-- A dword reads back as it was written. -/
theorem readSized_writeSized_dword (m : Memory) (a : Nat) (v : Word) :
    (m.writeSized a v .dword).readSized a .dword = v := by
  have h := writeSized_holds m a v .dword
  have h0 := h 0 (by decide)
  have h1 := h 1 (by decide)
  have h2 := h 2 (by decide)
  have h3 := h 3 (by decide)
  simp only [OperandSize.bytes, Nat.add_zero] at h0 h1 h2 h3
  unfold Memory.readSized
  rw [h0, h1, h2, h3]
  exact wordOfBytes_byteOf v

/-! ### The canonical form -/

theorem insertCell_mem {cells : List Host.Cell} {a : Nat} {v : Byte} {c : Host.Cell} :
    c ∈ insertCell a v cells → c = (a, v) ∨ c ∈ cells := by
  induction cells with
  | nil => simp [insertCell]
  | cons d rest ih =>
    unfold insertCell
    split
    · simp only [List.mem_cons]
      rintro (h | h)
      · simp [h]
      · rcases ih h with h | h <;> simp [h]
    · simp

theorem insertCell_ascending {cells : List Host.Cell} (a : Nat) (v : Byte)
    (h : cells.Pairwise fun p q => p.1 < q.1) (ha : ∀ c ∈ cells, c.1 ≠ a) :
    (insertCell a v cells).Pairwise fun p q => p.1 < q.1 := by
  induction cells with
  | nil => simp [insertCell]
  | cons d rest ih =>
    obtain ⟨k, w⟩ := d
    have hk : k ≠ a := ha (k, w) (by simp)
    rw [List.pairwise_cons] at h
    unfold insertCell
    split
    · rename_i hlt
      rw [List.pairwise_cons]
      refine ⟨fun c hc => ?_, ih h.2 fun c hc => ha c (by simp [hc])⟩
      rcases insertCell_mem hc with e | hc
      · simpa [e] using hlt
      · exact h.1 c hc
    · rename_i hge
      have hak : a < k := by omega
      rw [List.pairwise_cons, List.pairwise_cons]
      refine ⟨fun c hc => ?_, h.1, h.2⟩
      rcases List.mem_cons.1 hc with e | hc
      · simpa [e] using hak
      · exact Nat.lt_trans hak (h.1 c hc)

theorem writeByte_wf {m : Memory} (a : Nat) (v : Byte) (hm : m.wf) (ha : a < m.size) : (m.writeByte a v).wf := by
  obtain ⟨hp, hc, hs⟩ := hm
  have hp' : (m.cells.filter fun c => c.1 ≠ a).Pairwise fun p q => p.1 < q.1 := hp.filter _
  refine ⟨?_, ?_, hs⟩
  · simp only [Memory.writeByte, writeCells]
    split
    · exact hp'
    · exact insertCell_ascending a v hp' (by simp)
  · intro c
    simp only [Memory.writeByte, writeCells]
    split
    · intro h; exact hc c (List.mem_of_mem_filter h)
    · rename_i hv
      intro h
      rcases insertCell_mem h with e | h
      · exact e ▸ ⟨ha, hv⟩
      · exact hc c (List.mem_of_mem_filter h)

/-- A sized write inside memory keeps the canonical form. -/
theorem writeSized_wf {m : Memory} (a : Nat) (v : Word) (sz : OperandSize) (hm : m.wf)
    (ha : a + sz.bytes ≤ m.size) : (m.writeSized a v sz).wf := by
  cases sz <;> simp only [OperandSize.bytes] at ha <;> simp only [Memory.writeSized]
  · exact writeByte_wf _ _ hm (by omega)
  · exact writeByte_wf _ _ (writeByte_wf _ _ hm (by omega)) (by simp; omega)
  · exact writeByte_wf _ _ (writeByte_wf _ _ (writeByte_wf _ _ (writeByte_wf _ _ hm (by omega)) (by simp; omega))
      (by simp; omega)) (by simp; omega)

/-! ### The checked accesses (R31, R32, R36) -/

/-- Everything `Memory.read` can answer. -/
theorem read_eq (m : Memory) (a : Word) (sz : OperandSize) :
    (a.toNat + sz.bytes ≤ m.size ∧ m.read a sz = some (m.readSized a.toNat sz))
      ∨ (m.size < a.toNat + sz.bytes ∧ m.read a sz = none) := by
  unfold Memory.read Memory.inRange
  by_cases h : a.toNat + sz.bytes ≤ m.size
  · exact .inl ⟨h, by simp [h]⟩
  · exact .inr ⟨by omega, by simp [h]⟩

/-- Everything `Memory.write` can answer. -/
theorem write_eq (m : Memory) (a : Word) (sz : OperandSize) (v : Word) :
    (a.toNat + sz.bytes ≤ m.size ∧ m.write a sz v = some (m.writeSized a.toNat v sz))
      ∨ (m.size < a.toNat + sz.bytes ∧ m.write a sz v = none) := by
  unfold Memory.write Memory.inRange
  by_cases h : a.toNat + sz.bytes ≤ m.size
  · exact .inl ⟨h, by simp [h]⟩
  · exact .inr ⟨by omega, by simp [h]⟩

/-- A checked write keeps the canonical form. -/
theorem write_wf {m m' : Memory} {a : Word} {sz : OperandSize} {v : Word} (hm : m.wf)
    (h : m.write a sz v = some m') : m'.wf := by
  rcases write_eq m a sz v with ⟨ha, e⟩ | ⟨-, e⟩
  · rw [e] at h; cases h; exact writeSized_wf _ v sz hm ha
  · simp [e] at h

/-- Placing a word keeps the canonical form. -/
theorem placeWord_wf {m : Memory} (a v : Word) (hm : m.wf) : (m.placeWord a v).wf := by
  unfold Memory.placeWord
  split
  · exact write_wf hm ‹_›
  · exact hm

/-! ### Reset -/

theorem imageCells_mem {a : Nat} {image : List Byte} {c : Host.Cell} (h : c ∈ imageCells a image) :
    a ≤ c.1 ∧ c.1 < a + image.length ∧ c.2 ≠ Config.unlistedByte := by
  induction image generalizing a with
  | nil => simp [imageCells] at h
  | cons b rest ih =>
    unfold imageCells at h
    split at h
    · obtain ⟨h1, h2, h3⟩ := ih h
      simp only [List.length_cons]
      exact ⟨by omega, by omega, h3⟩
    · rcases List.mem_cons.1 h with e | h
      · subst e; simp only [List.length_cons]; exact ⟨le_refl _, by omega, ‹_›⟩
      · obtain ⟨h1, h2, h3⟩ := ih h
        simp only [List.length_cons]
        exact ⟨by omega, by omega, h3⟩

theorem imageCells_ascending (a : Nat) (image : List Byte) :
    (imageCells a image).Pairwise fun p q => p.1 < q.1 := by
  induction image generalizing a with
  | nil => simp [imageCells]
  | cons b rest ih =>
    unfold imageCells
    split
    · exact ih _
    · rw [List.pairwise_cons]
      exact ⟨fun c hc => by have := (imageCells_mem hc).1; simp; omega, ih _⟩

/-- Reset's memory is in canonical form. -/
theorem launch_wf {memSize : Nat} {image : List Byte} {pc : Word} {s : State}
    (h : launch memSize image pc = some s) : s.mem.wf := by
  unfold launch at h
  split at h
  · rename_i hr
    cases h
    refine ⟨imageCells_ascending _ _, fun c hc => ?_, hr.1, hr.2.1⟩
    obtain ⟨-, h2, h3⟩ := imageCells_mem hc
    exact ⟨by simp at h2 ⊢; omega, h3⟩
  · cases h

theorem reset_wf : State.reset.mem.wf := by decide

end Sys2Proof.Machine
end

