-- ==== Sys2Proof/Laws/Ops.lean ====
section
/-! SUPPORT. For each shared operation, one lemma that says everything it can do. -/

namespace Sys2Proof.Machine

/-- A fault changes the run state alone (spec/60_exceptions.md R124). -/
@[simp] theorem raise_eq (s : State) (c : Cause) : raise s c = .next (s.haltedWith c) := rfl

theorem whenRunning_running {s : State} (act : Result) (h : s.run = .running) : whenRunning s act = act := by
  simp [whenRunning, h]

theorem whenRunning_halted {s : State} (act : Result) {c : Cause} (h : s.run = .halted c) :
    whenRunning s act = .next s := by
  simp [whenRunning, h]

/-- What a guarded action answers: the halted state itself, or the action's answer on a running core. -/
theorem whenRunning_cases {s t : State} {act : Result} (h : whenRunning s act = .next t) :
    ((∃ c, s.run = .halted c) ∧ t = s) ∨ (s.run = .running ∧ act = .next t) := by
  unfold whenRunning at h
  split at h
  · exact .inr ⟨‹_›, h⟩
  · rename_i c hc; cases h; exact .inl ⟨⟨c, hc⟩, rfl⟩

theorem withLoad_inRange {s : State} {a : Word} {sz : OperandSize} (k : Word → Result)
    (h : a.toNat + sz.bytes ≤ s.mem.size) : withLoad s a sz k = k (s.mem.readSized a.toNat sz) := by
  simp [withLoad, Memory.read, Memory.inRange, h]

theorem withLoad_outOfRange {s : State} {a : Word} {sz : OperandSize} (k : Word → Result)
    (h : s.mem.size < a.toNat + sz.bytes) : withLoad s a sz k = .next (s.haltedWith (.memoryBounds a sz.bytes)) := by
  simp [withLoad, Memory.read, Memory.inRange, Nat.not_le.2 h]

/-- What a checked load answers: the bounds fault, or what comes after the load. -/
theorem withLoad_cases {s t : State} {a : Word} {sz : OperandSize} {k : Word → Result}
    (h : withLoad s a sz k = .next t) :
    (s.mem.size < a.toNat + sz.bytes ∧ t = s.haltedWith (.memoryBounds a sz.bytes))
      ∨ (a.toNat + sz.bytes ≤ s.mem.size ∧ k (s.mem.readSized a.toNat sz) = .next t) := by
  by_cases hr : a.toNat + sz.bytes ≤ s.mem.size
  · exact .inr ⟨hr, withLoad_inRange k hr ▸ h⟩
  · rw [withLoad_outOfRange k (by omega)] at h; cases h; exact .inl ⟨by omega, rfl⟩

theorem withStore_inRange {s : State} {a : Word} {sz : OperandSize} {v : Word} (k : State → Result)
    (h : a.toNat + sz.bytes ≤ s.mem.size) :
    withStore s a sz v k = k { s with mem := s.mem.writeSized a.toNat v sz } := by
  simp [withStore, Memory.write, Memory.inRange, h]

theorem withStore_outOfRange {s : State} {a : Word} {sz : OperandSize} {v : Word} (k : State → Result)
    (h : s.mem.size < a.toNat + sz.bytes) :
    withStore s a sz v k = .next (s.haltedWith (.memoryBounds a sz.bytes)) := by
  simp [withStore, Memory.write, Memory.inRange, Nat.not_le.2 h]

/-- What a checked store answers: the bounds fault, or what comes after the store. -/
theorem withStore_cases {s t : State} {a : Word} {sz : OperandSize} {v : Word} {k : State → Result}
    (h : withStore s a sz v k = .next t) :
    (s.mem.size < a.toNat + sz.bytes ∧ t = s.haltedWith (.memoryBounds a sz.bytes))
      ∨ (a.toNat + sz.bytes ≤ s.mem.size ∧ k { s with mem := s.mem.writeSized a.toNat v sz } = .next t) := by
  by_cases hr : a.toNat + sz.bytes ≤ s.mem.size
  · exact .inr ⟨hr, withStore_inRange k hr ▸ h⟩
  · rw [withStore_outOfRange k (by omega)] at h; cases h; exact .inl ⟨by omega, rfl⟩

theorem withOperandWord_eq (s : State) (k : Word → Result) : withOperandWord s k = withLoad s (s.pc + 4) .dword k :=
  rfl

theorem withFetch_eq (s : State) (k : Word → Result) : withFetch s k = withLoad s s.pc .dword k := rfl

@[simp] theorem advance_next (s : State) : advance (.next s) = .next s.advancePc := rfl

/-- The incrementer answers a next state only from one. -/
theorem advance_cases {r : Result} {t : State} (h : advance r = .next t) : ∃ u, r = .next u ∧ t = u.advancePc := by
  cases r with
  | next u => cases h; exact ⟨u, rfl, rfl⟩
  | fault r => cases r
  | refused r => cases h

/-- `execute` of a halted core does nothing (R124). -/
theorem exec_halted {s : State} {c : Cause} (h : s.run = .halted c) (i : Instr) : exec i s = .next s := by
  cases i <;> exact whenRunning_halted _ h

/-- What the Unrecognized marker does (spec/44_instruction_cycle.md R113). -/
theorem execUnrecognized_cases {w : Word} {s t : State} (h : execUnrecognized w s = .next t) :
    ((∃ c, s.run = .halted c) ∧ t = s) ∨ (s.run = .running ∧ t = s.haltedWith (.unrecognizedOpcode w)) := by
  rcases whenRunning_cases h with h | ⟨hr, e⟩
  · exact .inl h
  · cases e; exact .inr ⟨hr, rfl⟩

end Sys2Proof.Machine
end

