-- ==== Sys2Proof/Laws/PerInstr.lean ====
section
/-! SUPPORT. Families of statements made per instruction. -/

namespace Sys2Proof.Laws.EncodesToRow

/-- The instruction's word meets the mask and match of its row in spec/opcode_table.json. -/
def Statement (i : Instr) : Prop := encode i &&& i.rowMask = i.rowMatch

theorem and_7FF (w r : Word) (h : w.toNat % 2 ^ 11 = r.toNat) : w &&& 0x7FF#32 = r := by
  apply BitVec.eq_of_toNat_eq
  rw [BitVec.toNat_and, ← h]
  exact Nat.and_two_pow_sub_one_eq_mod w.toNat 11

theorem and_FF (w r : Word) (h : w.toNat % 2 ^ 8 = r.toNat) : w &&& 0xFF#32 = r := by
  apply BitVec.eq_of_toNat_eq
  rw [BitVec.toNat_and, ← h]
  exact Nat.and_two_pow_sub_one_eq_mod w.toNat 8

theorem low_11 (z : BitVec 2) (f : BitVec 6) (s d : BitVec 5) (m : BitVec 3) (o : BitVec 8) :
    (packWord z f s d m o).toNat % 2 ^ 11 = o.toNat + m.toNat * 2 ^ 8 := by
  rw [packWord_toNat]
  omega

theorem low_8 (z : BitVec 2) (f : BitVec 6) (s d : BitVec 5) (m : BitVec 3) (o : BitVec 8) :
    (packWord z f s d m o).toNat % 2 ^ 8 = o.toNat := by
  rw [packWord_toNat]
  omega

/-- A row that fixes opcode and mode. -/
theorem of_mode {i : Instr} {r : Word} (op : Opcode) (m : Mode) (ho : i.opcode = op ∧ i.mode = m)
    (hm : i.rowMask = 0x7FF#32) (hr : i.rowMatch = r) (h : r.toNat = op.id.toNat + m.code.toNat * 2 ^ 8) :
    Statement i := by
  unfold Statement
  rw [hm, hr]
  refine and_7FF _ _ ?_
  rw [h, ← ho.1, ← ho.2]
  exact low_11 ..

/-- A row that fixes the opcode alone. -/
theorem of_opcode {i : Instr} (ho : i.opcode = .lea) (hm : i.rowMask = 0xFF#32) (hr : i.rowMatch = 2#32) :
    Statement i := by
  unfold Statement
  rw [hm, hr]
  refine and_FF _ _ ?_
  rw [show (2#32).toNat = Opcode.lea.id.toNat from rfl, ← ho]
  exact low_8 ..

theorem moveAtomic (f : Fields) : Statement (.moveAtomic f) :=
  of_mode (r := 0x00000001#32) .move .atomic ⟨rfl, rfl⟩ rfl rfl (by decide)
theorem moveImmediate (f : Fields) : Statement (.moveImmediate f) :=
  of_mode (r := 0x00000101#32) .move .immediate ⟨rfl, rfl⟩ rfl rfl (by decide)
theorem moveMemoryDest (f : Fields) : Statement (.moveMemoryDest f) :=
  of_mode (r := 0x00000201#32) .move .memoryDest ⟨rfl, rfl⟩ rfl rfl (by decide)
theorem moveMemorySrc (f : Fields) : Statement (.moveMemorySrc f) :=
  of_mode (r := 0x00000301#32) .move .memorySrc ⟨rfl, rfl⟩ rfl rfl (by decide)
theorem moveMemoryDestInc (f : Fields) : Statement (.moveMemoryDestInc f) :=
  of_mode (r := 0x00000401#32) .move .memoryDestInc ⟨rfl, rfl⟩ rfl rfl (by decide)
theorem moveMemorySrcInc (f : Fields) : Statement (.moveMemorySrcInc f) :=
  of_mode (r := 0x00000501#32) .move .memorySrcInc ⟨rfl, rfl⟩ rfl rfl (by decide)
theorem moveMemoryDestDec (f : Fields) : Statement (.moveMemoryDestDec f) :=
  of_mode (r := 0x00000601#32) .move .memoryDestDec ⟨rfl, rfl⟩ rfl rfl (by decide)
theorem moveMemorySrcDec (f : Fields) : Statement (.moveMemorySrcDec f) :=
  of_mode (r := 0x00000701#32) .move .memorySrcDec ⟨rfl, rfl⟩ rfl rfl (by decide)
theorem lea (m : Mode) (f : Fields) : Statement (.lea m f) := of_opcode rfl rfl rfl
theorem pushAtomic (f : Fields) : Statement (.pushAtomic f) :=
  of_mode (r := 0x00000003#32) .push .atomic ⟨rfl, rfl⟩ rfl rfl (by decide)
theorem pushImmediate (f : Fields) : Statement (.pushImmediate f) :=
  of_mode (r := 0x00000103#32) .push .immediate ⟨rfl, rfl⟩ rfl rfl (by decide)
theorem pushMemoryDest (f : Fields) : Statement (.pushMemoryDest f) :=
  of_mode (r := 0x00000203#32) .push .memoryDest ⟨rfl, rfl⟩ rfl rfl (by decide)
theorem pushMemorySrc (f : Fields) : Statement (.pushMemorySrc f) :=
  of_mode (r := 0x00000303#32) .push .memorySrc ⟨rfl, rfl⟩ rfl rfl (by decide)
theorem pushMemoryDestInc (f : Fields) : Statement (.pushMemoryDestInc f) :=
  of_mode (r := 0x00000403#32) .push .memoryDestInc ⟨rfl, rfl⟩ rfl rfl (by decide)
theorem pushMemorySrcInc (f : Fields) : Statement (.pushMemorySrcInc f) :=
  of_mode (r := 0x00000503#32) .push .memorySrcInc ⟨rfl, rfl⟩ rfl rfl (by decide)
theorem pushMemoryDestDec (f : Fields) : Statement (.pushMemoryDestDec f) :=
  of_mode (r := 0x00000603#32) .push .memoryDestDec ⟨rfl, rfl⟩ rfl rfl (by decide)
theorem pushMemorySrcDec (f : Fields) : Statement (.pushMemorySrcDec f) :=
  of_mode (r := 0x00000703#32) .push .memorySrcDec ⟨rfl, rfl⟩ rfl rfl (by decide)
theorem popAtomic (f : Fields) : Statement (.popAtomic f) :=
  of_mode (r := 0x00000004#32) .pop .atomic ⟨rfl, rfl⟩ rfl rfl (by decide)
theorem popImmediate (f : Fields) : Statement (.popImmediate f) :=
  of_mode (r := 0x00000104#32) .pop .immediate ⟨rfl, rfl⟩ rfl rfl (by decide)
theorem popMemoryDest (f : Fields) : Statement (.popMemoryDest f) :=
  of_mode (r := 0x00000204#32) .pop .memoryDest ⟨rfl, rfl⟩ rfl rfl (by decide)
theorem popMemorySrc (f : Fields) : Statement (.popMemorySrc f) :=
  of_mode (r := 0x00000304#32) .pop .memorySrc ⟨rfl, rfl⟩ rfl rfl (by decide)
theorem popMemoryDestInc (f : Fields) : Statement (.popMemoryDestInc f) :=
  of_mode (r := 0x00000404#32) .pop .memoryDestInc ⟨rfl, rfl⟩ rfl rfl (by decide)
theorem popMemorySrcInc (f : Fields) : Statement (.popMemorySrcInc f) :=
  of_mode (r := 0x00000504#32) .pop .memorySrcInc ⟨rfl, rfl⟩ rfl rfl (by decide)
theorem popMemoryDestDec (f : Fields) : Statement (.popMemoryDestDec f) :=
  of_mode (r := 0x00000604#32) .pop .memoryDestDec ⟨rfl, rfl⟩ rfl rfl (by decide)
theorem popMemorySrcDec (f : Fields) : Statement (.popMemorySrcDec f) :=
  of_mode (r := 0x00000704#32) .pop .memorySrcDec ⟨rfl, rfl⟩ rfl rfl (by decide)

end Sys2Proof.Laws.EncodesToRow
end

