-- ==== Sys2Proof/Laws/Run.lean ====
section
/-! SUPPORT. Runs of the machine: one cycle at a time, and the induction over them. -/

namespace Sys2Proof.Machine

theorem run_zero (s : State) : core.run 0 s = .next s := rfl

theorem run_next {s t : State} (k : Nat) (h : step s = .next t) : core.run (k + 1) s = core.run k t := by
  have : core.step s = .next t := h
  simp only [Host.Core.run, this]

/-- What a cycle of a running core does: fetch, decode, execute, advance. -/
theorem step_running {s : State} (h : s.run = .running) (hf : s.canFetch) :
    step s = advance (execute (decode s.fetchedWord) s) :=
  (whenRunning_running _ h).trans (withLoad_inRange _ hf)

/-- What a cycle of a halted core does. -/
theorem step_halted {s : State} {c : Cause} (h : s.run = .halted c) : step s = .next s := whenRunning_halted _ h

/-- No cycle ends without a next state: the machine has no fault outcome and no arm refuses. -/
theorem exec_answers (i : Instr) (s : State) : ∃ t, exec i s = .next t := by
  cases h : exec i s with
  | next t => exact ⟨t, rfl⟩
  | fault r => cases r
  | refused r =>
    exfalso
    revert h
    cases i <;>
      simp only [exec, execMoveAtomic, execMoveImmediate, execMoveMemoryDest, execMoveMemorySrc, execMoveMemoryDestInc,
        execMoveMemorySrcInc, execMoveMemoryDestDec, execMoveMemorySrcDec, execLea, execPushAtomic, execPushImmediate,
        execPopAtomic, execPushMemoryDest, execPushMemorySrc, execPushMemoryDestInc, execPushMemorySrcInc,
        execPushMemoryDestDec, execPushMemorySrcDec, execPopImmediate, execPopMemoryDest, execPopMemorySrc,
        execPopMemoryDestInc, execPopMemorySrcInc, execPopMemoryDestDec, execPopMemorySrcDec, raisePushMode,
        raisePopMode, whenRunning, withOperandWord, withLoad, withStore, raise_eq] <;>
      repeat' split
    all_goals simp

/-- Everything a cycle can do: nothing on a halted core, the fetch's bounds fault, cause 1, or the decoded instruction
followed by the incrementer. -/
theorem step_inversion {s t : State} (h : step s = .next t) :
    ((∃ c, s.run = .halted c) ∧ t = s)
      ∨ (s.run = .running ∧ ¬ s.canFetch ∧ t = s.haltedWith (.memoryBounds s.pc 4))
      ∨ (s.run = .running ∧ s.canFetch ∧ decode s.fetchedWord = .unrecognized s.fetchedWord
          ∧ t = s.haltedWith (.unrecognizedOpcode s.fetchedWord))
      ∨ (s.run = .running ∧ s.canFetch
          ∧ ∃ i u, decode s.fetchedWord = .instr i ∧ exec i s = .next u ∧ t = u.advancePc) := by
  rcases whenRunning_cases h with h | ⟨hr, h⟩
  · exact .inl h
  rcases withLoad_cases h with ⟨hb, rfl⟩ | ⟨hb, h⟩
  · exact .inr (.inl ⟨hr, Nat.not_le.2 hb, rfl⟩)
  obtain ⟨u, hu, rfl⟩ := advance_cases h
  cases hd : decode (s.mem.readSized s.pc.toNat .dword) with
  | instr i =>
    rw [hd] at hu
    exact .inr (.inr (.inr ⟨hr, hb, i, u, hd, hu, rfl⟩))
  | unrecognized w =>
    rw [hd] at hu
    obtain rfl := (decode_eq_unrecognized hd).1
    rcases execUnrecognized_cases hu with ⟨⟨c, hc⟩, -⟩ | ⟨-, rfl⟩
    · rw [hr] at hc; cases hc
    · exact .inr (.inr (.inl ⟨hr, hb, hd, rfl⟩))

/-- What holds of a state and is kept by every cycle holds after every run. -/
theorem run_keeps {P : State → Prop} (hstep : ∀ s t, P s → step s = .next t → P t) :
    ∀ (k : Nat) {s t : State}, P s → core.run k s = .next t → P t := by
  intro k
  induction k with
  | zero => intro s t hs h; cases h; exact hs
  | succ k ih =>
    intro s t hs h
    cases hu : step s with
    | next u => exact ih (hstep s u hs hu) (run_next k hu ▸ h)
    | fault r => cases r
    | refused r =>
      have e : core.step s = .refused r := hu
      simp only [Host.Core.run, e] at h
      cases h

end Sys2Proof.Machine
end

