-- ==== Sys2Proof/Tests/Slice0.lean ====
section
/-! SUPPORT. Small tests with their expected results from the spec (S, V: spec/95_test_vectors.md), the smoke tests of
WellFormed.lean, and for every statement with hypotheses a witness that meets them. -/

namespace Sys2Proof.Tests

open Machine

/-- The state after reset with another `pc`, other registers and memory cells. -/
def st (pc : Word) (regs : List (Reg × Word)) (cells : List Host.Cell) : State :=
  { State.reset with
    pc := pc
    regs := regs.foldl (fun v p => v.set p.1.val p.2 p.1.isLt) State.reset.regs
    mem := { State.reset.mem with cells := cells } }

/-- What a test looks at: one register, another, the last-written cache, Z, N and `pc`. -/
def look (r q : Reg) (s : State) : List Word × Bool × Bool :=
  ([s.readReg r, s.readReg q, s.last, s.pc], s.zFlag, s.nFlag)

/-- `look` after `execute` of a word. -/
def ran (w : Word) (s : State) (r q : Reg) : Option (List Word × Bool × Bool) :=
  match execute (decode w) s with
  | .next t => if t.run = .running then some (look r q t) else none
  | .fault _ => none
  | .refused _ => none

/-- The memory cells after `execute` of a word. -/
def stored (w : Word) (s : State) : Option (List Host.Cell) :=
  match execute (decode w) s with
  | .next t => some t.mem.cells
  | .fault _ => none
  | .refused _ => none

/-- The state after one cycle. -/
def stepped (s : State) : Option State :=
  match step s with
  | .next t => some t
  | .fault _ => none
  | .refused _ => none

/-- Every field at its largest value. -/
def allOnes : Fields := ⟨31, 31, 63, .dword⟩

/-! ### WellFormed: one ill-formed term per check, and a well-formed one beside it -/

theorem test_destAllowed : (Instr.lea .immediate ⟨15, 0, 0, .dword⟩).destAllowed = false
    ∧ (Instr.lea .immediate ⟨15, 0, 0, .dword⟩).wellFormed = false
    ∧ (Instr.lea .immediate ⟨16, 0, 0, .dword⟩).wellFormed = true := by decide
theorem test_modeAllowed_push : (Instr.pushMemoryDest allOnes).modeAllowed = false
    ∧ (Instr.pushMemorySrcDec allOnes).wellFormed = false ∧ (Instr.pushImmediate allOnes).wellFormed = true := by decide
theorem test_modeAllowed_pop : (Instr.popImmediate allOnes).modeAllowed = false
    ∧ (Instr.popMemorySrcDec allOnes).wellFormed = false ∧ (Instr.popAtomic allOnes).wellFormed = true := by decide
theorem test_canonical_offset : (Instr.moveAtomic ⟨0, 5, 1, .dword⟩).canonical = false
    ∧ (Instr.moveAtomic ⟨0, 5, 0, .dword⟩).canonical = true := by decide
theorem test_canonical_dest : (Instr.pushAtomic ⟨1, 5, 0, .dword⟩).canonical = false
    ∧ (Instr.pushAtomic ⟨0, 5, 0, .dword⟩).canonical = true := by decide
theorem test_canonical_src : (Instr.moveImmediate ⟨1, 5, 0, .byte⟩).canonical = false
    ∧ (Instr.moveImmediate ⟨1, 0, 0, .byte⟩).canonical = true := by decide
theorem test_canonical_size : (Instr.moveImmediate ⟨1, 0, 0, .dword⟩).canonical = false := by decide
theorem test_canonical_lea : (Instr.lea .atomic ⟨16, 0, 0, .dword⟩).canonical = false
    ∧ (Instr.lea .immediate ⟨16, 0, 0, .word⟩).canonical = false
    ∧ (Instr.lea .immediate ⟨16, 0, 0, .dword⟩).canonical = true := by decide

/-! ### Decoding: words written bit by bit from R51's diagram (size, offset, source, destination, 13:11, mode, opcode) -/

theorem test_decode_move :
    decode 0b00_000000_00011_00010_000_000_00000001#32 = .instr (.moveAtomic ⟨2, 3, 0, .byte⟩)
    ∧ decode 0b01_000001_00000_00010_000_001_00000001#32 = .instr (.moveImmediate ⟨2, 0, 1, .word⟩)
    ∧ decode 0b10_000000_00011_10000_000_010_00000001#32 = .instr (.moveMemoryDest ⟨16, 3, 0, .dword⟩)
    ∧ decode 0b11_000000_10000_00110_000_011_00000001#32 = .instr (.moveMemorySrc ⟨6, 16, 0, .dword⟩)
    ∧ decode 0b01_000000_10010_10010_000_100_00000001#32 = .instr (.moveMemoryDestInc ⟨18, 18, 0, .word⟩)
    ∧ decode 0b10_100000_10000_00001_000_101_00000001#32 = .instr (.moveMemorySrcInc ⟨1, 16, 32, .dword⟩)
    ∧ decode 0b01_000000_00010_10001_000_110_00000001#32 = .instr (.moveMemoryDestDec ⟨17, 2, 0, .word⟩)
    ∧ decode 0b01_000000_10011_00111_000_111_00000001#32 = .instr (.moveMemorySrcDec ⟨7, 19, 0, .word⟩) := by decide
theorem test_decode_lea :
    decode 0b10_000000_00000_10010_000_001_00000010#32 = .instr (.lea .immediate ⟨18, 0, 0, .dword⟩)
    ∧ decode 0b00_000101_01001_11111_000_110_00000010#32 = .instr (.lea .memoryDestDec ⟨31, 9, 5, .byte⟩)
    ∧ decode 0b00_000000_00000_00000_000_111_00000010#32 = .instr (.lea .memorySrcDec ⟨0, 0, 0, .byte⟩) := by decide
theorem test_decode_push :
    decode 0b00_111111_00000_00000_000_000_00000011#32 = .instr (.pushAtomic ⟨0, 0, 63, .byte⟩)
    ∧ decode 0b01_000000_00000_00000_000_001_00000011#32 = .instr (.pushImmediate ⟨0, 0, 0, .word⟩)
    ∧ decode 0b10_000000_10000_00000_000_010_00000011#32 = .instr (.pushMemoryDest ⟨0, 16, 0, .dword⟩)
    ∧ decode 0b10_000000_10000_00000_000_011_00000011#32 = .instr (.pushMemorySrc ⟨0, 16, 0, .dword⟩)
    ∧ decode 0b10_000000_10000_00000_000_100_00000011#32 = .instr (.pushMemoryDestInc ⟨0, 16, 0, .dword⟩)
    ∧ decode 0b10_000000_10000_00000_000_101_00000011#32 = .instr (.pushMemorySrcInc ⟨0, 16, 0, .dword⟩)
    ∧ decode 0b10_000000_10000_00000_000_110_00000011#32 = .instr (.pushMemoryDestDec ⟨0, 16, 0, .dword⟩)
    ∧ decode 0b10_000000_10000_00000_000_111_00000011#32 = .instr (.pushMemorySrcDec ⟨0, 16, 0, .dword⟩) := by decide
theorem test_decode_pop :
    decode 0b00_000000_00000_00000_000_000_00000100#32 = .instr (.popAtomic ⟨0, 0, 0, .byte⟩)
    ∧ decode 0b10_000000_00000_00100_000_001_00000100#32 = .instr (.popImmediate ⟨4, 0, 0, .dword⟩)
    ∧ decode 0b10_000000_00000_00100_000_010_00000100#32 = .instr (.popMemoryDest ⟨4, 0, 0, .dword⟩)
    ∧ decode 0b10_000000_00000_00100_000_011_00000100#32 = .instr (.popMemorySrc ⟨4, 0, 0, .dword⟩)
    ∧ decode 0b10_000000_00000_00100_000_100_00000100#32 = .instr (.popMemoryDestInc ⟨4, 0, 0, .dword⟩)
    ∧ decode 0b10_000000_00000_00100_000_101_00000100#32 = .instr (.popMemorySrcInc ⟨4, 0, 0, .dword⟩)
    ∧ decode 0b10_000000_00000_00100_000_110_00000100#32 = .instr (.popMemoryDestDec ⟨4, 0, 0, .dword⟩)
    ∧ decode 0b11_111111_11111_11111_000_111_00000100#32 = .instr (.popMemorySrcDec ⟨31, 31, 63, .dword⟩) := by decide
/-- V-D1 to V-D6. -/
theorem test_decode_fields :
    decode 0x80280001#32 = .instr (.moveAtomic ⟨0, 5, 0, .dword⟩)
    ∧ decode 0xC0280001#32 = .instr (.moveAtomic ⟨0, 5, 0, .dword⟩)
    ∧ decode 0x80283801#32 = .instr (.moveAtomic ⟨0, 5, 0, .dword⟩)
    ∧ decode 0x00080001#32 = .instr (.moveAtomic ⟨0, 1, 0, .byte⟩)
    ∧ decode 0x00004001#32 = .instr (.moveAtomic ⟨1, 0, 0, .byte⟩)
    ∧ decode 0x01000001#32 = .instr (.moveAtomic ⟨0, 0, 1, .byte⟩) := by decide
/-- V-D10 to V-D12. -/
theorem test_decode_unrecognized :
    decode 0x00000000#32 = .unrecognized 0 ∧ decode 0x00000005#32 = .unrecognized 5
    ∧ decode 0xFFFFFFFF#32 = .unrecognized 0xFFFFFFFF#32 := by decide
/-- S2's instance in range, and its two out of range. -/
theorem test_encode :
    encode (.moveMemorySrcDec ⟨7, 19, 0, .word⟩) = 0x4099C701#32
    ∧ encode (.moveAtomic ⟨0, 5, 0, .dword⟩) = 0x80280001#32 := by decide
/-- R41: the bytes of a word, the first the most significant. -/
theorem test_decodeBytes :
    decodeBytes [0x80, 0x28, 0x00, 0x01, 0xAA] = .instr (.moveAtomic ⟨0, 5, 0, .dword⟩) [0xAA]
    ∧ decodeBytes [0x01, 0x00, 0x28, 0x80] = .unrecognized 0x01002880#32
    ∧ decodeBytes [0x80, 0x28, 0x00] = .tooShort := by decide
theorem test_decodeTableWord :
    decodeTableWord 64 0x0000002A_80000101 = some (.moveImmediate ⟨0, 0, 0, .dword⟩)
    ∧ decodeTableWord 32 0x80280001 = some (.moveAtomic ⟨0, 5, 0, .dword⟩)
    ∧ decodeTableWord 32 0x5 = none := by decide

/-! ### Memory, truncation, flags -/

/-- S1. -/
theorem test_trunc : OperandSize.byte.trunc 0xAABBCCDD#32 = 0xDD#32 ∧ OperandSize.word.trunc 0xAABBCCDD#32 = 0xCCDD#32
    ∧ OperandSize.dword.trunc 0xAABBCCDD#32 = 0xAABBCCDD#32 := by decide
/-- V-X1 to V-X3. -/
theorem test_write :
    (State.reset.mem.write 0x100 .dword 0xAABBCCDD#32).map Memory.cells
      = some [(0x100, 0xAA), (0x101, 0xBB), (0x102, 0xCC), (0x103, 0xDD)]
    ∧ (State.reset.mem.write 0x200 .byte 0x12345678#32).map Memory.cells = some [(0x200, 0x78)]
    ∧ (State.reset.mem.write 0x200 .word 0x12345678#32).map Memory.cells = some [(0x200, 0x56), (0x201, 0x78)] := by decide
/-- V-X1: the narrow reads. -/
theorem test_read : let m := (st 0 [] [(0x100, 0xAA), (0x101, 0xBB), (0x102, 0xCC), (0x103, 0xDD)]).mem
    m.read 0x100 .byte = some 0xAA#32 ∧ m.read 0x101 .byte = some 0xBB#32 ∧ m.read 0x102 .word = some 0xCCDD#32
    ∧ m.read 0x100 .word = some 0xAABB#32 := by decide
/-- V-X4 to V-X7. -/
theorem test_bounds : State.reset.mem.read 0x07FFFFFC#32 .dword = some 0 ∧ State.reset.mem.read 0x07FFFFFD#32 .dword = none
    ∧ State.reset.mem.read 0xFFFFFFFE#32 .dword = none ∧ State.reset.mem.write 0x07FFFFFF#32 .word 1 = none := by decide
/-- A zero byte is not listed, and writing zero removes a cell. -/
theorem test_write_zero_removes :
    ((st 0 [] [(0x10, 1), (0x11, 2)]).mem.write 0x10 .byte 0x100#32).map Memory.cells = some [(0x11, 2)] := by decide
/-- R20: bits 31:2 of `SR` survive the flag update. -/
theorem test_flags_keep_reserved :
    (({ State.reset with sr := 0xFFFFFFFE#32, last := 0 } : State).updateFlags).sr = 0xFFFFFFFD#32 := by decide

/-! ### Move -/

/-- S4. -/
theorem test_moveAtomic : ran 0x80280001#32 (st 0 [(5, 0xAABBCCDD#32)] []) 0 5
    = some ([0xAABBCCDD#32, 0xAABBCCDD#32, 0xAABBCCDD#32, 0], false, true) := by decide
/-- V-M1. -/
theorem test_moveAtomic_byte : ran 0x00280001#32 (st 0 [(5, 0xAABBCC00#32), (0, 0x55555555#32)] []) 0 5
    = some ([0, 0xAABBCC00#32, 0, 0], true, false) := by decide
/-- V-M3: the size is ignored. -/
theorem test_moveImmediate :
    ran 0x00008101#32 (st 0x100 [] [(0x104, 0x12), (0x105, 0x34), (0x106, 0x56), (0x107, 0x78)]) 2 0
    = some ([0x12345678#32, 0, 0x12345678#32, 0x104], false, false) := by decide
/-- V-M12. -/
theorem test_moveImmediate_bounds : exec (.moveImmediate ⟨0, 0, 0, .dword⟩) (st 0x07FFFFFC#32 [] [])
    = .next ((st 0x07FFFFFC#32 [] []).haltedWith (.memoryBounds 0x08000000#32 4)) := by rfl
/-- V-M4: the flags are stale. -/
theorem test_moveMemoryDest : ran 0x801C0201#32 { st 0 [(16, 0x2000#32)] [(0x2001, 9)] with last := 0x80000000#32 } 16 3
    = some ([0x2000#32, 0, 0x80000000#32, 0], false, true) := by decide
/-- V-M10: the one byte in range is not written. -/
theorem test_moveMemoryDest_bounds :
    exec (.moveMemoryDest ⟨16, 3, 0, .word⟩) (st 0 [(16, 0x07FFFFFF#32), (3, 0x1234#32)] [])
    = .next ((st 0 [(16, 0x07FFFFFF#32), (3, 0x1234#32)] []).haltedWith (.memoryBounds 0x07FFFFFF#32 2)) := by rfl
/-- S6, the Word row: big-endian at an odd address. -/
theorem test_moveMemorySrc :
    ran 0x40800301#32 (st 0 [(16, 0x07000BA5#32)]
      [(0x07000BA5, 0xAA), (0x07000BA6, 0xBB), (0x07000BA7, 0xCC), (0x07000BA8, 0xDD)]) 0 16
    = some ([0xAABB#32, 0x07000BA5#32, 0xAABB#32, 0], false, false) := by decide
/-- V-M6: no sign extension. -/
theorem test_moveMemorySrc_byte : ran 0x00818301#32 (st 0 [(16, 0x3000#32)] [(0x3000, 0xFF)]) 6 16
    = some ([0xFF#32, 0x3000#32, 0xFF#32, 0], false, false) := by decide
/-- V-M13: the pointer is its own source. -/
theorem test_moveMemoryDestInc : ran 0x40948401#32 (st 0 [(18, 0x4000#32)] []) 18 0
    = some ([0x4002#32, 0, 0x4002#32, 0], false, false)
    ∧ stored 0x40948401#32 (st 0 [(18, 0x4000#32)] []) = some [(0x4000, 0x40)] := by decide
/-- V-M15, at a capacity of 2^32 bytes. -/
theorem test_moveMemoryDestInc_wraps :
    ran 0x800C0401#32 { st 0 [(16, 0xFFFFFFFC#32), (1, 0x99#32)] [] with mem := ⟨2 ^ 32, []⟩ } 16 1
    = some ([0, 0x99#32, 0, 0], true, false) := by decide
/-- S7: the flags follow the pointer. -/
theorem test_moveMemorySrcInc :
    ran 0x80804501#32 (st 0 [(16, 0x05403502#32)]
      [(0x05403502, 0xDE), (0x05403503, 0xAD), (0x05403504, 0xBE), (0x05403505, 0xEF)]) 1 16
    = some ([0xDEADBEEF#32, 0x05403506#32, 0x05403506#32, 0], false, false) := by decide
/-- V-M9: one register as pointer and destination. -/
theorem test_moveMemorySrcInc_same : ran 0x80840501#32 (st 0 [(16, 0x3000#32)] [(0x3003, 0x10)]) 16 0
    = some ([0x14#32, 0, 0x14#32, 0], false, false) := by decide
/-- V-M7: the store precedes the decrement, which wraps. -/
theorem test_moveMemoryDestDec : ran 0x40144601#32 (st 0 [(17, 1), (2, 0xA1B2C3D4#32)] []) 17 2
    = some ([0xFFFFFFFF#32, 0xA1B2C3D4#32, 0xFFFFFFFF#32, 0], false, true)
    ∧ stored 0x40144601#32 (st 0 [(17, 1), (2, 0xA1B2C3D4#32)] []) = some [(1, 0xC3), (2, 0xD4)] := by decide
/-- V-M8: Z from the pointer. -/
theorem test_moveMemoryDestDec_zero : ran 0x80144601#32 (st 0 [(17, 4), (2, 0xA1B2C3D4#32)] []) 17 2
    = some ([0, 0xA1B2C3D4#32, 0, 0], true, false) := by decide
/-- V-M14. -/
theorem test_moveMemorySrcDec : ran 0x4099C701#32 (st 0 [(19, 0x5002#32)] [(0x5002, 0x12), (0x5003, 0x34)]) 7 19
    = some ([0x1234#32, 0x5000#32, 0x5000#32, 0], false, false) := by decide

/-! ### Lea -/

/-- V-L1: Z, set before, stays. -/
theorem test_lea : ran 0x80040102#32 { st 0x40 [] [(0x46, 0x20)] with sr := 1 } 16 0
    = some ([0x2000#32, 0, 0x2000#32, 0x44#32], true, false) := by decide
/-- V-L4: the precondition is reported before the operand word's bounds. -/
theorem test_lea_precondition : exec (.lea .immediate ⟨3, 0, 0, .dword⟩) (st 0x07FFFFFC#32 [] [])
    = .next ((st 0x07FFFFFC#32 [] []).haltedWith (.preconditionViolation 3)) := by rfl

/-! ### Push and Pop -/

/-- V-P1. -/
theorem test_pushAtomic : ran 0x80180003#32 (st 0 [(31, 0x8000#32), (3, 0x11223344#32)] []) 31 3
    = some ([0x7FFC#32, 0x11223344#32, 0x7FFC#32, 0], false, false)
    ∧ stored 0x80180003#32 (st 0 [(31, 0x8000#32), (3, 0x11223344#32)] [])
      = some [(0x8000, 0x11), (0x8001, 0x22), (0x8002, 0x33), (0x8003, 0x44)] := by decide
/-- V-P4: the old stack pointer is stored. -/
theorem test_pushAtomic_sp : stored 0x80F80003#32 (st 0 [(31, 0x8000#32)] []) = some [(0x8002, 0x80)] := by decide
/-- V-P3. -/
theorem test_pushImmediate : let s := st 0x20 [(31, 0x8000#32)] [(0x24, 0xA1), (0x25, 0xB2), (0x26, 0xC3), (0x27, 0xD4)]
    ran 0x40000103#32 s 31 0 = some ([0x7FFE#32, 0, 0x7FFE#32, 0x24#32], false, false)
    ∧ stored 0x40000103#32 s
      = some [(0x24, 0xA1), (0x25, 0xB2), (0x26, 0xC3), (0x27, 0xD4), (0x8000, 0xC3), (0x8001, 0xD4)] := by decide
/-- V-P12: the stack check precedes the move of `pc`. -/
theorem test_pushImmediate_bounds : exec (.pushImmediate ⟨0, 0, 0, .word⟩) (st 0x20 [(31, 0x07FFFFFF#32)] [])
    = .next ((st 0x20 [(31, 0x07FFFFFF#32)] []).haltedWith (.memoryBounds 0x07FFFFFF#32 2)) := by rfl
/-- V-P8 and the other five modes. -/
theorem test_push_modes : let s := st 0 [(31, 0x8000#32)] []
    exec (.pushMemoryDest allOnes) s = .next (s.haltedWith (.unimplementedMode .push .memoryDest))
    ∧ exec (.pushMemorySrc allOnes) s = .next (s.haltedWith (.unimplementedMode .push .memorySrc))
    ∧ exec (.pushMemoryDestInc allOnes) s = .next (s.haltedWith (.unimplementedMode .push .memoryDestInc))
    ∧ exec (.pushMemorySrcInc allOnes) s = .next (s.haltedWith (.unimplementedMode .push .memorySrcInc))
    ∧ exec (.pushMemoryDestDec allOnes) s = .next (s.haltedWith (.unimplementedMode .push .memoryDestDec))
    ∧ exec (.pushMemorySrcDec allOnes) s = .next (s.haltedWith (.unimplementedMode .push .memorySrcDec)) :=
  ⟨rfl, rfl, rfl, rfl, rfl, rfl⟩
/-- V-P5. -/
theorem test_popAtomic :
    ran 0x80010004#32 (st 0 [(31, 0x7FFC#32)] [(0x7FFC, 0xDE), (0x7FFD, 0xAD), (0x7FFE, 0xBE), (0x7FFF, 0xEF)]) 4 31
    = some ([0xDEADBEEF#32, 0x8000#32, 0xDEADBEEF#32, 0], false, false) := by decide
/-- V-P6: the popped value overwrites the increment. -/
theorem test_popAtomic_sp : ran 0x8007C004#32 (st 0 [(31, 0x7FFC#32)] [(0x7FFE, 0x90)]) 31 0
    = some ([0x9000#32, 0, 0x9000#32, 0], false, false) := by decide
/-- V-P9 and the other six modes. -/
theorem test_pop_modes : let s := st 0x20 [(31, 0x8000#32)] []
    exec (.popImmediate allOnes) s = .next (s.haltedWith (.unimplementedMode .pop .immediate))
    ∧ exec (.popMemoryDest allOnes) s = .next (s.haltedWith (.unimplementedMode .pop .memoryDest))
    ∧ exec (.popMemorySrc allOnes) s = .next (s.haltedWith (.unimplementedMode .pop .memorySrc))
    ∧ exec (.popMemoryDestInc allOnes) s = .next (s.haltedWith (.unimplementedMode .pop .memoryDestInc))
    ∧ exec (.popMemorySrcInc allOnes) s = .next (s.haltedWith (.unimplementedMode .pop .memorySrcInc))
    ∧ exec (.popMemoryDestDec allOnes) s = .next (s.haltedWith (.unimplementedMode .pop .memoryDestDec))
    ∧ exec (.popMemorySrcDec allOnes) s = .next (s.haltedWith (.unimplementedMode .pop .memorySrcDec)) :=
  ⟨rfl, rfl, rfl, rfl, rfl, rfl, rfl⟩

/-! ### The instruction cycle and reset -/

/-- V-C1. -/
theorem test_step : (stepped (st 0 [(5, 9)] [(0, 0x80), (1, 0x28), (3, 1)])).map (look 0 5)
    = some ([9, 9, 9, 4], false, false) := by decide
/-- V-C2. -/
theorem test_step_operandWord : (stepped (st 0 [] [(0, 0x80), (2, 1), (3, 1), (7, 0x2A)])).map (look 0 5)
    = some ([0x2A, 0, 0x2A, 8], false, false) := by decide
/-- V-C3. -/
theorem test_step_empty : step State.reset = .next (State.reset.haltedWith (.unrecognizedOpcode 0)) := by rfl
/-- V-C4. -/
theorem test_step_fetch_bounds :
    step (st 0x07FFFFFD#32 [] []) = .next ((st 0x07FFFFFD#32 [] []).haltedWith (.memoryBounds 0x07FFFFFD#32 4)) := by rfl
/-- V-C6: fetch is big-endian. -/
theorem test_step_bigEndian : (stepped (st 0 [] [(0, 1), (2, 0x28), (3, 0x80)])).map State.run
    = some (.halted (.unrecognizedOpcode 0x01002880#32)) := by decide
/-- V-C7: fetch needs no alignment. -/
theorem test_step_unaligned : (stepped (st 1 [(5, 9)] [(1, 0x80), (2, 0x28), (4, 1)])).map (look 0 5)
    = some ([9, 9, 9, 5], false, false) := by decide
/-- V-C5. -/
theorem test_step_halted : let s := State.reset.haltedWith (.unrecognizedOpcode 0)
    step s = .next s := by rfl
/-- R5's bounds on the capacity, and an image that is too long. -/
theorem test_launch_require : launch 7 [] 0 = none ∧ (launch 8 [] 0).isSome ∧ (launch (2 ^ 32) [] 0).isSome
    ∧ launch (2 ^ 32 + 1) [] 0 = none ∧ launch 8 [1, 2, 3, 4, 5, 6, 7, 8, 9] 0 = none := by decide
/-- P6's memory: 16 bytes. -/
theorem test_launch_image : (launch 16 [0x80, 0x08, 0x00, 0x01] 0).map State.mem
    = some ⟨16, [(0, 0x80), (1, 0x08), (3, 0x01)]⟩ := by decide
/-- P6's last cycle, at 0x0C: the operand word would lie past the end of memory. -/
theorem test_launch_runs_off :
    (launch 16 [0x80, 8, 0, 1, 0x80, 8, 0, 1, 0x80, 8, 0, 1, 0x80, 0, 1, 1] 0x0C).map
        (fun s => (stepped s).map fun t => (t.run, t.pc))
      = some (some (.halted (.memoryBounds 0x10 4), 0x0C)) := by decide
theorem test_withFetchWord : (stepped (State.reset.withFetchWord 64 0x0000002A_80000101)).map (look 0 1)
    = some ([0x2A, 0, 0x2A, 8], false, false) := by decide
theorem test_memory_wf : State.reset.mem.wf ∧ ¬ (st 0 [] [(1, 0)]).mem.wf ∧ ¬ (st 0 [] [(2, 1), (1, 1)]).mem.wf
    ∧ ¬ (st 0 [] [(0x08000000, 1)]).mem.wf := by decide

/-! ### Witnesses: for each statement with hypotheses, data that meet them, clause by clause at the bounds -/

/-- In-range words at each end, and for each condition a word that misses it alone. -/
theorem witness_EncodeOfDecodeExactlyInRange :
    encode (.moveAtomic ⟨0, 0, 0, .byte⟩) = 0x00000001#32
    ∧ encode (.popMemorySrcDec allOnes) = 0xBFFFC704#32 ∧ decode 0xBFFFC704#32 = .instr (.popMemorySrcDec allOnes)
    ∧ decode 0#32 = .unrecognized 0 ∧ decode 5#32 = .unrecognized 5
    ∧ decode 0x00003801#32 = .instr (.moveAtomic ⟨0, 0, 0, .byte⟩)
    ∧ decode 0xC0000001#32 = .instr (.moveAtomic ⟨0, 0, 0, .dword⟩) := by decide
/-- Both clauses, at the opcode ids 1, 4 and 0, 5. -/
theorem witness_DecodeExtractsEveryField :
    (1 ≤ (0xC0280001#32).toNat % 2 ^ 8 ∧ (0xC0280001#32).toNat % 2 ^ 8 ≤ 4)
    ∧ (1 ≤ (0xFFFFFF04#32).toNat % 2 ^ 8 ∧ (0xFFFFFF04#32).toNat % 2 ^ 8 ≤ 4)
    ∧ ¬ (1 ≤ (0#32).toNat % 2 ^ 8 ∧ (0#32).toNat % 2 ^ 8 ≤ 4)
    ∧ ¬ (1 ≤ (5#32).toNat % 2 ^ 8 ∧ (5#32).toNat % 2 ^ 8 ≤ 4) := by decide
theorem witness_DecodeSelectsTheTableRow :
    decode 0xFFFFFF04#32 = .instr (.popMemorySrcDec allOnes)
    ∧ 0xFFFFFF04#32 &&& (Instr.popMemorySrcDec allOnes).rowMask = (Instr.popMemorySrcDec allOnes).rowMatch
    ∧ 0xFFFFFF02#32 &&& (Instr.lea .atomic allOnes).rowMask = (Instr.lea .atomic allOnes).rowMatch
    ∧ Instr.opcode (.lea .atomic allOnes) = .lea ∧ Instr.opcode (.popMemorySrcDec allOnes) ≠ .lea := by decide
theorem witness_SizePatternThreeIsDword :
    (0x80280001#32).toNat / 2 ^ 30 = 2 ∧ (0xC0280001#32).toNat / 2 ^ 30 = 3
    ∧ (0x80280001#32).toNat % 2 ^ 30 = (0xC0280001#32).toNat % 2 ^ 30
    ∧ decode 0x80280001#32 = .instr (.moveAtomic ⟨0, 5, 0, .dword⟩)
    ∧ (0x00280001#32).toNat / 2 ^ 30 = 0 ∧ decode 0x00280001#32 = .instr (.moveAtomic ⟨0, 5, 0, .byte⟩)
    ∧ (0x40280001#32).toNat / 2 ^ 30 = 1 ∧ decode 0x40280001#32 = .instr (.moveAtomic ⟨0, 5, 0, .word⟩) := by decide
theorem witness_UnreadBitsDoNotDecode :
    0x80280001#32 &&& 0xFFFFC7FF#32 = 0x80283801#32 &&& 0xFFFFC7FF#32
    ∧ decode 0x80280001#32 = .instr (.moveAtomic ⟨0, 5, 0, .dword⟩) := by decide
/-- Instructions that differ, with the same used fields. -/
theorem witness_IgnoredFieldsHaveNoEffect :
    let i : Instr := .moveImmediate ⟨2, 9, 63, .byte⟩
    let j : Instr := .moveImmediate ⟨2, 0, 0, .dword⟩
    i ≠ j ∧ i.opcode = j.opcode ∧ (i.opcode ≠ .lea → i.mode = j.mode)
      ∧ (i.usesDest = true → i.fields.dest = j.fields.dest) ∧ (i.usesSrc = true → i.fields.src = j.fields.src)
      ∧ (i.usesSize = true → i.fields.size = j.fields.size) := by decide
/-- The last four bytes, one past them, and an access that would wrap. -/
theorem witness_MemReadIsBigEndian :
    (0x07FFFFFC#32).toNat + OperandSize.dword.bytes ≤ State.reset.mem.size
    ∧ State.reset.mem.size < (0x07FFFFFD#32).toNat + OperandSize.dword.bytes
    ∧ State.reset.mem.size < (0xFFFFFFFE#32).toNat + OperandSize.dword.bytes := by decide
theorem witness_MemWriteStoresLowBytes :
    (0x07FFFFFE#32).toNat + OperandSize.word.bytes ≤ State.reset.mem.size
    ∧ State.reset.mem.size < (0x07FFFFFF#32).toNat + OperandSize.word.bytes := by decide
theorem witness_MixedWidthReadsSeeBytes :
    State.reset.mem.size ≤ 2 ^ 32
    ∧ ∃ m', State.reset.mem.write 0x100 .dword 0xAABBCCDD#32 = some m' ∧ m'.cells.length = 4 :=
  ⟨by decide, _, rfl, by decide⟩
/-- Two ways to the same bytes. -/
theorem witness_CanonicalMemoriesAreTheirBytes :
    let m := (State.reset.mem.writeByte 5 7).writeByte 3 2
    let m' := (State.reset.mem.writeByte 3 2).writeByte 5 7
    m.wf ∧ m'.wf ∧ m.size = m'.size ∧ ∀ a, m.readByte a = m'.readByte a :=
  ⟨by decide, by decide, rfl, fun _ => rfl⟩

/-- Running states for the result statements: A0, A1 and A15 hold `a`. -/
def ptr (a : Word) : State := st 0x100 [(16, a), (17, a), (31, a)] []

/-- Each size at the last address in range and at the first out of range. -/
theorem witness_boundary_addresses :
    (∀ r : Reg, r = 16 ∨ r = 17 ∨ r = 31 →
      ((ptr 0x07FFFFFF#32).readReg r).toNat + OperandSize.byte.bytes ≤ (ptr 0x07FFFFFF#32).mem.size
      ∧ (ptr 0x08000000#32).mem.size < ((ptr 0x08000000#32).readReg r).toNat + OperandSize.byte.bytes
      ∧ ((ptr 0x07FFFFFE#32).readReg r).toNat + OperandSize.word.bytes ≤ (ptr 0x07FFFFFE#32).mem.size
      ∧ (ptr 0x07FFFFFF#32).mem.size < ((ptr 0x07FFFFFF#32).readReg r).toNat + OperandSize.word.bytes
      ∧ ((ptr 0x07FFFFFC#32).readReg r).toNat + OperandSize.dword.bytes ≤ (ptr 0x07FFFFFC#32).mem.size
      ∧ (ptr 0x07FFFFFD#32).mem.size < ((ptr 0x07FFFFFD#32).readReg r).toNat + OperandSize.dword.bytes) := by decide
theorem witness_MoveAtomicResult : State.reset.run = .running := by decide
/-- The operand word at the end of memory, past it, and at address 0 after `pc + 4` wraps. -/
theorem witness_MoveImmediateResult :
    let inside := st 0x07FFFFF8#32 [] []
    let outside := st 0x07FFFFF9#32 [] []
    let wrapped := st 0xFFFFFFFC#32 [] []
    inside.run = .running ∧ outside.run = .running ∧ wrapped.run = .running
    ∧ (inside.pc + 4).toNat + 4 ≤ inside.mem.size ∧ outside.mem.size < (outside.pc + 4).toNat + 4
    ∧ (wrapped.pc + 4).toNat + 4 ≤ wrapped.mem.size := by decide
theorem witness_MoveMemoryDestResult :
    let f : Fields := ⟨16, 3, 0, .word⟩
    (ptr 0x07FFFFFE#32).run = .running ∧ (ptr 0x07FFFFFF#32).run = .running
    ∧ ((ptr 0x07FFFFFE#32).readReg f.dest).toNat + f.size.bytes ≤ (ptr 0x07FFFFFE#32).mem.size
    ∧ (ptr 0x07FFFFFF#32).mem.size < ((ptr 0x07FFFFFF#32).readReg f.dest).toNat + f.size.bytes := by decide
theorem witness_MoveMemorySrcResult :
    let f : Fields := ⟨3, 16, 0, .dword⟩
    (ptr 0x07FFFFFC#32).run = .running ∧ (ptr 0x07FFFFFD#32).run = .running
    ∧ ((ptr 0x07FFFFFC#32).readReg f.src).toNat + f.size.bytes ≤ (ptr 0x07FFFFFC#32).mem.size
    ∧ (ptr 0x07FFFFFD#32).mem.size < ((ptr 0x07FFFFFD#32).readReg f.src).toNat + f.size.bytes := by decide
/-- With the pointer as its own source. -/
theorem witness_MoveMemoryDestIncResult :
    let f : Fields := ⟨16, 16, 0, .word⟩
    (ptr 0x07FFFFFE#32).run = .running ∧ (ptr 0x07FFFFFF#32).run = .running
    ∧ ((ptr 0x07FFFFFE#32).readReg f.dest).toNat + f.size.bytes ≤ (ptr 0x07FFFFFE#32).mem.size
    ∧ (ptr 0x07FFFFFF#32).mem.size < ((ptr 0x07FFFFFF#32).readReg f.dest).toNat + f.size.bytes := by decide
/-- With one register as pointer and destination, and with two. -/
theorem witness_MoveMemorySrcIncResult :
    let f : Fields := ⟨16, 16, 0, .byte⟩
    let g : Fields := ⟨1, 16, 0, .byte⟩
    (ptr 0x07FFFFFF#32).run = .running ∧ (ptr 0x08000000#32).run = .running
    ∧ ((ptr 0x07FFFFFF#32).readReg f.src).toNat + f.size.bytes ≤ (ptr 0x07FFFFFF#32).mem.size
    ∧ ((ptr 0x07FFFFFF#32).readReg g.src).toNat + g.size.bytes ≤ (ptr 0x07FFFFFF#32).mem.size
    ∧ (ptr 0x08000000#32).mem.size < ((ptr 0x08000000#32).readReg g.src).toNat + g.size.bytes := by decide
/-- At address 0, where the decrement wraps, and past the end. -/
theorem witness_MoveMemoryDestDecResult :
    let f : Fields := ⟨16, 2, 0, .word⟩
    (ptr 0).run = .running ∧ (ptr 0x07FFFFFF#32).run = .running
    ∧ ((ptr 0).readReg f.dest).toNat + f.size.bytes ≤ (ptr 0).mem.size
    ∧ (ptr 0x07FFFFFF#32).mem.size < ((ptr 0x07FFFFFF#32).readReg f.dest).toNat + f.size.bytes := by decide
theorem witness_MoveMemorySrcDecResult :
    let f : Fields := ⟨17, 17, 0, .dword⟩
    let g : Fields := ⟨1, 17, 0, .dword⟩
    (ptr 0).run = .running ∧ (ptr 0x07FFFFFD#32).run = .running
    ∧ ((ptr 0).readReg f.src).toNat + f.size.bytes ≤ (ptr 0).mem.size
    ∧ ((ptr 0).readReg g.src).toNat + g.size.bytes ≤ (ptr 0).mem.size
    ∧ (ptr 0x07FFFFFD#32).mem.size < ((ptr 0x07FFFFFD#32).readReg g.src).toNat + g.size.bytes := by decide
/-- Two Moves with the same used fields, and a running state in which the Move completes and one in which it faults. -/
theorem witness_EveryMoveEndsWithTheFlagUpdate :
    let i : Instr := .moveMemorySrc ⟨1, 16, 0, .dword⟩
    let j : Instr := .moveMemorySrc ⟨1, 16, 63, .dword⟩
    i.opcode = .move ∧ j.opcode = .move ∧ j.mode = i.mode ∧ j.fields.dest = i.fields.dest
    ∧ j.fields.src = i.fields.src ∧ j.fields.size = i.fields.size
    ∧ (ptr 0).run = .running ∧ i.faultOf (ptr 0) = none ∧ (ptr 0x08000000#32).run = .running
    ∧ i.faultOf (ptr 0x08000000#32) = some (.memoryBounds 0x08000000#32 4) := by decide
/-- Destinations 16 and 15, and both ends of memory for the operand word. -/
theorem witness_LeaResult :
    let f : Fields := ⟨16, 0, 0, .dword⟩
    let g : Fields := ⟨15, 0, 0, .dword⟩
    let inside := st 0x07FFFFF8#32 [] []
    let outside := st 0x07FFFFF9#32 [] []
    inside.run = .running ∧ outside.run = .running ∧ 16 ≤ f.dest.val ∧ g.dest.val < 16
    ∧ (inside.pc + 4).toNat + 4 ≤ inside.mem.size ∧ outside.mem.size < (outside.pc + 4).toNat + 4 := by decide
theorem witness_PushAtomicResult :
    let f : Fields := ⟨0, 31, 0, .dword⟩
    (ptr 0x07FFFFFC#32).run = .running ∧ (ptr 0x07FFFFFD#32).run = .running
    ∧ ((ptr 0x07FFFFFC#32).readReg 31).toNat + f.size.bytes ≤ (ptr 0x07FFFFFC#32).mem.size
    ∧ (ptr 0x07FFFFFD#32).mem.size < ((ptr 0x07FFFFFD#32).readReg 31).toNat + f.size.bytes := by decide
/-- Both in range; the operand word out of range; the stack alone out of range. -/
theorem witness_PushImmediateResult :
    let f : Fields := ⟨0, 0, 0, .word⟩
    let noOperand := st 0x07FFFFF9#32 [] []
    (ptr 0x07FFFFFE#32).run = .running ∧ (ptr 0x07FFFFFF#32).run = .running ∧ noOperand.run = .running
    ∧ ((ptr 0x07FFFFFE#32).pc + 4).toNat + 4 ≤ (ptr 0x07FFFFFE#32).mem.size
    ∧ ((ptr 0x07FFFFFE#32).readReg 31).toNat + f.size.bytes ≤ (ptr 0x07FFFFFE#32).mem.size
    ∧ noOperand.mem.size < (noOperand.pc + 4).toNat + 4
    ∧ ((ptr 0x07FFFFFF#32).pc + 4).toNat + 4 ≤ (ptr 0x07FFFFFF#32).mem.size
    ∧ (ptr 0x07FFFFFF#32).mem.size < ((ptr 0x07FFFFFF#32).readReg 31).toNat + f.size.bytes := by decide
theorem witness_PushMemoryModesHalt : State.reset.run = .running := by decide
/-- Into the stack pointer and into another register, and past the end. -/
theorem witness_PopAtomicResult :
    let f : Fields := ⟨31, 0, 0, .dword⟩
    (ptr 0x07FFFFFC#32).run = .running ∧ (ptr 0x07FFFFFD#32).run = .running
    ∧ ((ptr 0x07FFFFFC#32).readReg 31).toNat + f.size.bytes ≤ (ptr 0x07FFFFFC#32).mem.size
    ∧ (ptr 0x07FFFFFD#32).mem.size < ((ptr 0x07FFFFFD#32).readReg 31).toNat + f.size.bytes := by decide
theorem witness_PopOtherModesHalt : State.reset.run = .running := by decide
theorem witness_PushThenPopIsNoInverse :
    let f : Fields := ⟨0, 3, 0, .dword⟩
    let g : Fields := ⟨30, 0, 0, .dword⟩
    let s := ptr 4
    s.run = .running ∧ g.size = f.size ∧ g.dest ≠ 31 ∧ (s.readReg 31).toNat + f.size.bytes ≤ s.mem.size
    ∧ (s.readReg 31 - BitVec.ofNat 32 f.size.bytes).toNat + f.size.bytes ≤ s.mem.size := by decide

/-- The frames: each instruction named there completes in one state. -/
theorem witness_RegisterMoveFrame : let f : Fields := ⟨1, 16, 0, .dword⟩
    (∃ t, exec (.moveAtomic f) (ptr 8) = .next t ∧ t.run = .running)
    ∧ (∃ t, exec (.moveImmediate f) (ptr 8) = .next t ∧ t.run = .running)
    ∧ (∃ t, exec (.moveMemorySrc f) (ptr 8) = .next t ∧ t.run = .running) :=
  ⟨⟨_, rfl, by decide⟩, ⟨_, rfl, by decide⟩, ⟨_, rfl, by decide⟩⟩
theorem witness_PointerLoadFrame : let f : Fields := ⟨1, 16, 0, .dword⟩
    (∃ t, exec (.moveMemorySrcInc f) (ptr 8) = .next t ∧ t.run = .running)
    ∧ (∃ t, exec (.moveMemorySrcDec f) (ptr 8) = .next t ∧ t.run = .running) :=
  ⟨⟨_, rfl, by decide⟩, ⟨_, rfl, by decide⟩⟩
theorem witness_StoringMoveFrame : let f : Fields := ⟨16, 17, 0, .dword⟩
    (∃ t, exec (.moveMemoryDest f) (ptr 8) = .next t ∧ t.run = .running)
    ∧ (∃ t, exec (.moveMemoryDestInc f) (ptr 8) = .next t ∧ t.run = .running)
    ∧ (∃ t, exec (.moveMemoryDestDec f) (ptr 8) = .next t ∧ t.run = .running) :=
  ⟨⟨_, rfl, by decide⟩, ⟨_, rfl, by decide⟩, ⟨_, rfl, by decide⟩⟩
theorem witness_LeaFrame : ∃ t, exec (.lea .memorySrc ⟨31, 0, 0, .byte⟩) (ptr 8) = .next t ∧ t.run = .running :=
  ⟨_, rfl, by decide⟩
theorem witness_PushFrame : let f : Fields := ⟨0, 16, 0, .dword⟩
    (∃ t, exec (.pushAtomic f) (ptr 8) = .next t ∧ t.run = .running)
    ∧ (∃ t, exec (.pushImmediate f) (ptr 8) = .next t ∧ t.run = .running) :=
  ⟨⟨_, rfl, by decide⟩, ⟨_, rfl, by decide⟩⟩
theorem witness_PopFrame : ∃ t, exec (.popAtomic ⟨1, 0, 0, .word⟩) (ptr 8) = .next t ∧ t.run = .running :=
  ⟨_, rfl, by decide⟩

/-- No fault, and each kind of fault, the order's conflicts included (V-L4, V-P12). -/
theorem witness_ExecFaultsExactlyAsTabled :
    (ptr 8).run = .running ∧ (ptr 0xFFFFFFFE#32).run = .running
    ∧ Instr.faultOf (.pushImmediate ⟨0, 0, 0, .dword⟩) (ptr 8) = none
    ∧ Instr.faultOf (.pushImmediate ⟨0, 0, 0, .dword⟩) (ptr 0xFFFFFFFE#32) = some (.memoryBounds 0xFFFFFFFE#32 4)
    ∧ Instr.faultOf (.popImmediate ⟨0, 0, 0, .dword⟩) (ptr 8) = some (.unimplementedMode .pop .immediate)
    ∧ Instr.faultOf (.lea .immediate ⟨15, 0, 0, .dword⟩) (st 0x07FFFFFC#32 [] []) = some (.preconditionViolation 15)
    ∧ Instr.faultOf (.lea .immediate ⟨16, 0, 0, .dword⟩) (st 0x07FFFFFC#32 [] [])
      = some (.memoryBounds 0x08000000#32 4) := by decide

/-- A running core whose next word is `MOVE.D D0 <- D5`, and one whose next word is a Pop in mode 1. -/
def ready : State := st 0 [(5, 9)] [(0, 0x80), (1, 0x28), (3, 1)]
def readyPop : State := st 0 [] [(0, 0x80), (1, 0x01), (2, 0x01), (3, 4)]

theorem ready_canFetch : ready.canFetch ∧ ready.run = .running
    ∧ decode ready.fetchedWord = .instr (.moveAtomic ⟨0, 5, 0, .dword⟩) := by
  unfold State.canFetch; decide
theorem readyPop_canFetch : readyPop.canFetch ∧ readyPop.run = .running
    ∧ decode readyPop.fetchedWord = .instr (.popImmediate ⟨4, 0, 0, .dword⟩) := by
  unfold State.canFetch; decide
/-- The last `pc` that can fetch and the first that can not. -/
theorem fetch_boundary : (st 0x07FFFFFC#32 [] []).canFetch ∧ ¬ (st 0x07FFFFFD#32 [] []).canFetch
    ∧ decode (st 0x07FFFFFC#32 [] []).fetchedWord = .unrecognized 0 := by
  unfold State.canFetch; decide

/-- Each of the four cases. -/
theorem witness_StepFaultOrder :
    ¬ (st 0x07FFFFFD#32 [] []).canFetch ∧ decode (st 0x07FFFFFC#32 [] []).fetchedWord = .unrecognized 0
    ∧ Instr.faultOf (.popImmediate ⟨4, 0, 0, .dword⟩) readyPop = some (.unimplementedMode .pop .immediate)
    ∧ Instr.faultOf (.moveAtomic ⟨0, 5, 0, .dword⟩) ready = none :=
  ⟨fetch_boundary.2.1, fetch_boundary.2.2, by decide, by decide⟩
theorem witness_FaultsArePrecise :
    State.reset.run = .running ∧ ∃ t, step State.reset = .next t ∧ t.isHalted
      ∧ execute (.unrecognized 0) State.reset = .next t :=
  ⟨rfl, State.reset.haltedWith (.unrecognizedOpcode 0), rfl, by unfold State.isHalted; decide, rfl⟩
theorem witness_HaltedCoreStaysHalted :
    (State.reset.haltedWith (.unrecognizedOpcode 0)).run = .halted (.unrecognizedOpcode 0)
    ∧ ∃ s, launch 8 [1] 4 = some s := ⟨rfl, _, rfl⟩
/-- One of the thirteen, and a neighbour that is none of them. -/
theorem witness_UnimplementedModeRaisedByThirteen :
    readyPop.run = .running ∧ Instr.opcode (.popImmediate allOnes) = .pop ∧ Instr.mode (.popImmediate allOnes) ≠ .atomic
    ∧ ∃ t, exec (.popImmediate allOnes) readyPop = .next t
      ∧ t.run = .halted (.unimplementedMode .pop .immediate) :=
  ⟨rfl, by decide, by decide, _, rfl, rfl⟩
theorem witness_UnrecognizedWordHalts :
    State.reset.run = .running ∧ State.reset.canFetch ∧ decode State.reset.fetchedWord = .unrecognized 0 := by
  unfold State.canFetch; decide
theorem witness_FetchReadsTheWordAtPc :
    (st 0x07FFFFFC#32 [] []).pc.toNat + 4 ≤ (st 0x07FFFFFC#32 [] []).mem.size
    ∧ (st 0x07FFFFFD#32 [] []).mem.size < (st 0x07FFFFFD#32 [] []).pc.toNat + 4 := by decide
/-- A completed instruction, and one that halts. -/
theorem witness_StepRunsTheDecodedInstruction :
    (∃ t, exec (.moveAtomic ⟨0, 5, 0, .dword⟩) ready = .next t ∧ t.run = .running)
    ∧ ∃ t, exec (.popImmediate ⟨4, 0, 0, .dword⟩) readyPop = .next t ∧ t.run ≠ .running :=
  ⟨⟨_, rfl, by decide⟩, ⟨_, rfl, by decide⟩⟩
/-- An instruction of each length. -/
theorem witness_PcMovesByTheInstructionLength :
    (∃ t, step ready = .next t ∧ t.run = .running ∧ t.pc = 4)
    ∧ ∃ t, step (st 0 [] [(0, 0x80), (2, 1), (3, 1), (7, 0x2A)]) = .next t ∧ t.run = .running ∧ t.pc = 8 :=
  ⟨⟨_, rfl, by decide, by decide⟩, ⟨_, rfl, by decide, by decide⟩⟩
/-- Each clause: a Pop that completes, a Move that halts, a Move that completes. -/
theorem witness_OnlyMoveWritesFlags :
    (∃ t, exec (.popAtomic ⟨1, 0, 0, .dword⟩) (ptr 8) = .next t ∧ t.run = .running)
    ∧ (∃ t, exec (.moveMemorySrc ⟨1, 16, 0, .dword⟩) (ptr 0x08000000#32) = .next t ∧ t.run ≠ .running)
    ∧ ∃ t, exec (.moveMemorySrc ⟨1, 16, 0, .dword⟩) (ptr 8) = .next t ∧ t.run = .running :=
  ⟨⟨_, rfl, by decide⟩, ⟨_, rfl, by decide⟩, ⟨_, rfl, by decide⟩⟩
/-- An instruction that writes two registers, and one that writes none. -/
theorem witness_RegistersWrittenAsTabled :
    (∃ t, exec (.popAtomic ⟨1, 0, 0, .dword⟩) (ptr 8) = .next t ∧ (ptr 8).run = .running ∧ t.run = .running)
    ∧ Instr.writes (.popAtomic ⟨1, 0, 0, .dword⟩) = [31, 1]
    ∧ (∃ t, exec (.moveMemoryDest ⟨16, 0, 0, .dword⟩) (ptr 8) = .next t ∧ t.run = .running)
    ∧ Instr.writes (.moveMemoryDest ⟨16, 0, 0, .dword⟩) = [] :=
  ⟨⟨_, rfl, rfl, by decide⟩, by decide, ⟨_, rfl, by decide⟩, by decide⟩
theorem witness_RegistersReadAsTabled :
    let i : Instr := .moveMemorySrcInc ⟨1, 16, 0, .dword⟩
    (2 : Reg) ∉ i.reads ∧ (2 : Reg) ∉ i.writes ∧ ∃ t, exec i (ptr 8) = .next t ∧ t.run = .running :=
  ⟨by decide, by decide, _, rfl, by decide⟩
theorem witness_StatusRegisterIsNeverRead : ∃ t, step ready = .next t ∧ t.run = .running := ⟨_, rfl, by decide⟩
theorem witness_LastIsReadByTheFlagsOnly : ∃ t, step ready = .next t ∧ t.run = .running := ⟨_, rfl, by decide⟩
theorem witness_StoreIsSeenByFetch :
    let f : Fields := ⟨16, 0, 0, .dword⟩
    let s := st 0x10 [(0, 0x4000C001#32), (16, 0x18)] []
    s.run = .running ∧ f.size = .dword ∧ (s.readReg f.dest).toNat + 4 ≤ s.mem.size
    ∧ ∃ t, exec (.moveMemoryDest f) s = .next t ∧ t.run = .running :=
  ⟨rfl, rfl, by decide, _, rfl, by decide⟩
/-- Both clauses, at the least and the greatest capacity and just outside them. -/
theorem witness_LaunchPlacesTheImage :
    (8 ≤ 8 ∧ 8 ≤ 2 ^ 32 ∧ [1, 2, 3, 4, 5, 6, 7, 8].length ≤ 8) ∧ (8 ≤ 2 ^ 32 ∧ 2 ^ 32 ≤ 2 ^ 32)
    ∧ ¬ (8 ≤ 7 ∧ 7 ≤ 2 ^ 32) ∧ ¬ (8 ≤ 2 ^ 32 + 1 ∧ 2 ^ 32 + 1 ≤ 2 ^ 32)
    ∧ ¬ ([1, 2, 3, 4, 5, 6, 7, 8, 9].length ≤ 8) := by decide
theorem witness_InvariantHoldsAtLaunch : ∃ s, launch 16 [0x80, 0x08, 0x00, 0x01] 0 = some s := ⟨_, rfl⟩

/-- A running state that meets the invariant and completes a cycle. -/
theorem witness_StepKeepsTheInvariant : Inv ready ∧ ∃ t, step ready = .next t ∧ t.run = .running :=
  ⟨{ memory := by decide
     reserved := fun i _ => BitVec.getLsbD_zero
     flags := by decide
     cause := fun _ h => nomatch h }, _, rfl, by decide⟩
/-- The cycle of a completed step, below 2^32 bytes. -/
theorem witness_EveryRunHalts : ready.mem.size < 2 ^ 32 ∧ ∃ t, CompletesStep ready t :=
  ⟨by decide, _, rfl, rfl, by decide⟩
theorem witness_PlacedWordRunsNext : State.reset.run = .running ∧ State.reset.canFetch := by
  unfold State.canFetch; decide
theorem witness_FirstPushAtResetWraps : allOnes.size = .dword := rfl

end Sys2Proof.Tests
end

section
/-! Size truncation as arithmetic on the value and on its bits (spec/10_state.md R19). -/

namespace Sys2Proof

/-- A mask of `8 * bytes(s)` ones is the remainder by that power of two. -/
theorem OperandSize.trunc_toNat (sz : OperandSize) (v : Word) :
    (sz.trunc v).toNat = v.toNat % 2 ^ (8 * sz.bytes) := by
  cases sz with
  | byte => exact Nat.and_two_pow_sub_one_eq_mod v.toNat 8
  | word => exact Nat.and_two_pow_sub_one_eq_mod v.toNat 16
  | dword => exact (Nat.mod_eq_of_lt v.isLt).symm

/-- The low `8 * bytes(s)` bits are kept and the others are zero: nothing is sign-extended. -/
theorem OperandSize.trunc_getLsbD (sz : OperandSize) (v : Word) (i : Nat) :
    (sz.trunc v).getLsbD i = (decide (i < 8 * sz.bytes) && v.getLsbD i) := by
  simp only [BitVec.getLsbD, trunc_toNat, Nat.testBit_mod_two_pow]

/-- No bit at or above the size's width survives truncation. -/
theorem OperandSize.trunc_getLsbD_of_le (sz : OperandSize) (v : Word) {i : Nat} (h : 8 * sz.bytes ≤ i) :
    (sz.trunc v).getLsbD i = false := by
  simp [trunc_getLsbD, h]

/-- Settles O14: the masks are `trunc`'s own three cases, and the zero bits follow from the width of each size. -/
theorem truncationMasks : Obligations.TruncationMasks := fun v =>
  ⟨rfl, rfl, rfl,
    fun _ => OperandSize.trunc_getLsbD_of_le .byte v,
    fun _ => OperandSize.trunc_getLsbD_of_le .word v⟩

end Sys2Proof
end

section
/-! The sized accesses against the bytes of memory (spec/20_memory.md R31 to R43). -/

namespace Sys2Proof.Machine

/-- The in-range case of `Memory.read`. -/
theorem read_inRange {m : Memory} {a : Word} {sz : OperandSize} (h : a.toNat + sz.bytes ≤ m.size) :
    m.read a sz = some (m.readSized a.toNat sz) := by
  rcases read_eq m a sz with ⟨-, hread⟩ | ⟨hout, -⟩
  · exact hread
  · omega

/-- Settles O10: in range the value read is `readSized` of the bytes, whose arithmetic is `readSized_toNat`; out of
range the checked load takes the fault. -/
theorem memReadIsBigEndian : Obligations.MemReadIsBigEndian := fun s a sz k =>
  ⟨fun hin => ⟨s.mem.readSized a.toNat sz, read_inRange hin, withLoad_inRange k hin, readSized_toNat s.mem a.toNat sz⟩,
    fun hout => withLoad_outOfRange k hout⟩

end Sys2Proof.Machine
end

section
/-! The size field of a decoded word, and what decoding depends on (spec/30_encoding.md R57, R58). -/

namespace Sys2Proof

/-- Selection of the row leaves the operand fields as they are. -/
@[simp] theorem instrOf_fields (op : Opcode) (m : Mode) (f : Fields) : (instrOf op m f).fields = f := by
  cases op <;> cases m <;> rfl

/-- A decoded instruction carries the operand fields of its word. -/
theorem fields_of_decode {w : Word} {i : Instr} (h : decode w = .instr i) : i.fields = fieldsOfWord w := by
  obtain ⟨op, -, rfl⟩ := decode_eq_instr h
  exact instrOf_fields op _ _

/-- The size of a decoded instruction is the one its word's size pattern names. -/
theorem size_of_decode {w : Word} {i : Instr} (h : decode w = .instr i) (z : BitVec 2)
    (hz : w.toNat / 2 ^ 30 = z.toNat) : i.fields.size = sizeOfCode z := by
  have hfield : sizeField w = z := BitVec.eq_of_toNat_eq ((sizeField_toNat w).trans hz)
  rw [fields_of_decode h, ← hfield]
  rfl

/-- Decoding reads a word through its opcode, its mode and its operand fields alone. -/
theorem decode_instr_congr {w w' : Word} {i : Instr} (hop : opcodeField w = opcodeField w')
    (hmode : modeField w = modeField w') (hfields : fieldsOfWord w = fieldsOfWord w')
    (h : decode w = .instr i) : decode w' = .instr i := by
  obtain ⟨op, hid, rfl⟩ := decode_eq_instr h
  rw [hop] at hid
  rw [hmode, hfields, decode, hid]

/-- A slice below bit `n` is the same in words that agree below bit `n`. -/
theorem extractLsb'_eq_of_mod_eq {w w' : Word} {n start len : Nat} (h : w.toNat % 2 ^ n = w'.toNat % 2 ^ n)
    (hfit : start + len ≤ n) : w.extractLsb' start len = w'.extractLsb' start len := by
  apply BitVec.eq_of_getLsbD_eq
  intro k hk
  have hbit : (w.toNat % 2 ^ n).testBit (start + k) = (w'.toNat % 2 ^ n).testBit (start + k) := by rw [h]
  have hlt : start + k < n := by omega
  simpa [Nat.testBit_mod_two_pow, hlt, hk, BitVec.getLsbD] using hbit

/-- Every operand field but the size lies in the low 30 bits (R51), so words that agree there have the same operand
fields once their size patterns name one size. -/
theorem fieldsOfWord_eq_of_low30 {w w' : Word} (hlow : w.toNat % 2 ^ 30 = w'.toNat % 2 ^ 30)
    (hsize : sizeOfCode (sizeField w) = sizeOfCode (sizeField w')) : fieldsOfWord w = fieldsOfWord w' := by
  have hdest : destField w = destField w' := extractLsb'_eq_of_mod_eq hlow (by decide)
  have hsrc : srcField w = srcField w' := extractLsb'_eq_of_mod_eq hlow (by decide)
  have hoffset : offsetField w = offsetField w' := extractLsb'_eq_of_mod_eq hlow (by decide)
  rw [fieldsOfWord, fieldsOfWord, hdest, hsrc, hoffset, hsize]

/-- Size patterns 2 and 3 both name Dword (R58). -/
theorem sizeOfCode_of_two_le {z : BitVec 2} (h : 2 ≤ z.toNat) : sizeOfCode z = .dword := by
  have hzero : z ≠ 0 := by rintro rfl; exact absurd h (by decide)
  have hone : z ≠ 1 := by rintro rfl; exact absurd h (by decide)
  rw [sizeOfCode, if_neg hzero, if_neg hone]

/-- Settles O7: the four sizes are those of `sizeOfCode`; patterns 2 and 3 name one size, and every other field the
decoder reads lies in the 30 bits on which the two words agree. -/
theorem sizePatternThreeIsDword : Obligations.SizePatternThreeIsDword := by
  refine ⟨fun w i h => ⟨size_of_decode h 0, size_of_decode h 1, size_of_decode h 2, size_of_decode h 3⟩, ?_⟩
  intro w w' i htwo hthree hlow h
  have hw : sizeOfCode (sizeField w) = .dword := sizeOfCode_of_two_le (by rw [sizeField_toNat, htwo])
  have hw' : sizeOfCode (sizeField w') = .dword := sizeOfCode_of_two_le (by rw [sizeField_toNat, hthree]; decide)
  have hop : opcodeField w = opcodeField w' := extractLsb'_eq_of_mod_eq hlow (by decide)
  have hmode : modeField w = modeField w' := extractLsb'_eq_of_mod_eq hlow (by decide)
  exact decode_instr_congr hop hmode (fieldsOfWord_eq_of_low30 hlow (hw.trans hw'.symm)) h

end Sys2Proof
end

section
/-! Decoding the word of an instruction, whatever its ignored bits hold (spec/30_encoding.md R51 to R64). -/

namespace Sys2Proof

/-- R51's formula with the opcode id and the mode code of the instruction itself. -/
theorem encodedAs (i : Instr) : EncodedAs i i.opcode.id.toNat i.mode.code.toNat := packWord_toNat ..

theorem opcodeOfId_id (op : Opcode) : opcodeOfId op.id = some op := by
  cases op <;> rfl

theorem modeOfCode_code (m : Mode) : modeOfCode m.code = m := by
  cases m <;> rfl

theorem sizeOfCode_code (sz : OperandSize) : sizeOfCode sz.code = sz := by
  cases sz <;> rfl

/-- An instruction is its opcode, its mode and its operand fields. -/
theorem instrOf_self (i : Instr) : instrOf i.opcode i.mode i.fields = i := by
  cases i <;> rfl

section

variable (z : BitVec 2) (f : BitVec 6) (s d : BitVec 5) (m : BitVec 3) (o : BitVec 8)

theorem opcodeField_packWord : opcodeField (packWord z f s d m o) = o := by
  apply BitVec.eq_of_toNat_eq
  rw [opcodeField_toNat, packWord_toNat]
  omega

theorem modeField_packWord : modeField (packWord z f s d m o) = m := by
  apply BitVec.eq_of_toNat_eq
  rw [modeField_toNat, packWord_toNat]
  omega

theorem destField_packWord : destField (packWord z f s d m o) = d := by
  apply BitVec.eq_of_toNat_eq
  rw [destField_toNat, packWord_toNat]
  omega

theorem srcField_packWord : srcField (packWord z f s d m o) = s := by
  apply BitVec.eq_of_toNat_eq
  rw [srcField_toNat, packWord_toNat]
  omega

theorem offsetField_packWord : offsetField (packWord z f s d m o) = f := by
  apply BitVec.eq_of_toNat_eq
  rw [offsetField_toNat, packWord_toNat]
  omega

theorem sizeField_packWord : sizeField (packWord z f s d m o) = z := by
  apply BitVec.eq_of_toNat_eq
  rw [sizeField_toNat, packWord_toNat]
  omega

end

/-- The operand fields come back from the instruction's word. -/
theorem fieldsOfWord_encode (i : Instr) : fieldsOfWord (encode i) = i.fields := by
  rw [fieldsOfWord, encode, destField_packWord, srcField_packWord, offsetField_packWord, sizeField_packWord,
    sizeOfCode_code]

/-- The word of an instruction decodes to it (R64). -/
theorem decode_encode (i : Instr) : decode (encode i) = .instr i := by
  have hop : opcodeField (encode i) = i.opcode.id := opcodeField_packWord ..
  have hmode : modeField (encode i) = i.mode.code := modeField_packWord ..
  rw [decode, hop, opcodeOfId_id, hmode, modeOfCode_code, fieldsOfWord_encode]
  exact congrArg Decoded.instr (instrOf_self i)

/-- Setting bits among 13:11 leaves a slice that lies below or above them as it was. -/
theorem extractLsb'_or_ignored {start len : Nat} (w : Word) (x : BitVec 3) (h : start + len ≤ 11 ∨ 14 ≤ start) :
    (w ||| x.setWidth 32 <<< 11).extractLsb' start len = w.extractLsb' start len := by
  apply BitVec.eq_of_getLsbD_eq
  intro k hk
  have hclear : (x.setWidth 32 <<< 11).getLsbD (start + k) = false := by
    rw [BitVec.getLsbD_shiftLeft]
    rcases h with hbelow | habove
    · have : start + k < 11 := by omega
      simp [this]
    · have : x.getLsbD (start + k - 11) = false := BitVec.getLsbD_of_ge _ _ (by omega)
      simp [this]
  simp [hclear]

/-- Setting bits among 13:11 of a word that decodes to an instruction changes nothing of what it decodes to (R53). -/
theorem decode_or_ignored {w : Word} {i : Instr} (x : BitVec 3) (h : decode w = .instr i) :
    decode (w ||| x.setWidth 32 <<< 11) = .instr i := by
  have hop : opcodeField w = opcodeField (w ||| x.setWidth 32 <<< 11) :=
    (extractLsb'_or_ignored w x (by decide)).symm
  have hmode : modeField w = modeField (w ||| x.setWidth 32 <<< 11) :=
    (extractLsb'_or_ignored w x (by decide)).symm
  have hfields : fieldsOfWord w = fieldsOfWord (w ||| x.setWidth 32 <<< 11) := by
    simp (disch := decide) only [fieldsOfWord, destField, srcField, offsetField, sizeField, extractLsb'_or_ignored]
  exact decode_instr_congr hop hmode hfields h

end Sys2Proof
end

section
/-! What all eight Moves share (spec/40_move.md R70, R79): the closing flag update, one fault, no use of the offset. -/

namespace Sys2Proof.Machine

/-- The flag update after writes that left the status register alone. -/
theorem flagsFrom_updateFlags {s u : State} (h : u.sr = s.sr) : FlagsFrom s u.updateFlags u.last := by
  obtain ⟨hz, hn, hother⟩ := updateFlags_flagsFrom u
  exact ⟨hz, hn, h ▸ hother⟩

/-- How a Move from the running state `s` may end: running, by the flag update over the status register of `s`, or
halted by a bounds fault. -/
def EndsAsMove (s : State) (r : Result) : Prop :=
  (∃ u : State, r = .next u.updateFlags ∧ u.run = .running ∧ u.sr = s.sr)
    ∨ ∃ (a : Word) (n : Nat), r = .next (s.haltedWith (.memoryBounds a n))

theorem endsAsMove_updateFlags {s u : State} (hrun : u.run = .running) (hsr : u.sr = s.sr) :
    EndsAsMove s (.next u.updateFlags) := .inl ⟨u, rfl, hrun, hsr⟩

theorem endsAsMove_whenRunning {s : State} {act : Result} (hr : s.run = .running) (h : EndsAsMove s act) :
    EndsAsMove s (whenRunning s act) := by
  rwa [whenRunning_running act hr]

/-- A checked load adds the bounds fault and no other end. -/
theorem endsAsMove_withLoad {s : State} {a : Word} {sz : OperandSize} {k : Word → Result}
    (h : ∀ v, EndsAsMove s (k v)) : EndsAsMove s (withLoad s a sz k) := by
  by_cases hin : a.toNat + sz.bytes ≤ s.mem.size
  · rw [withLoad_inRange k hin]; exact h _
  · rw [withLoad_outOfRange k (by omega)]; exact .inr ⟨a, sz.bytes, rfl⟩

/-- A checked store adds the bounds fault and no other end. -/
theorem endsAsMove_withStore {s : State} {a v : Word} {sz : OperandSize} {k : State → Result}
    (h : ∀ m, EndsAsMove s (k { s with mem := m })) : EndsAsMove s (withStore s a sz v k) := by
  by_cases hin : a.toNat + sz.bytes ≤ s.mem.size
  · rw [withStore_inRange k hin]; exact h _
  · rw [withStore_outOfRange k (by omega)]; exact .inr ⟨a, sz.bytes, rfl⟩

/-- A Move of any mode is at most one checked access followed by the flag update. -/
theorem exec_move_endsAsMove (m : Mode) (f : Fields) {s : State} (hr : s.run = .running) :
    EndsAsMove s (exec (instrOf .move m f) s) := by
  cases m <;> refine endsAsMove_whenRunning hr ?_
  case atomic => exact endsAsMove_updateFlags hr rfl
  case immediate | memorySrc | memorySrcInc | memorySrcDec =>
    exact endsAsMove_withLoad fun _ => endsAsMove_updateFlags hr rfl
  case memoryDest | memoryDestInc | memoryDestDec =>
    exact endsAsMove_withStore fun _ => endsAsMove_updateFlags hr rfl

/-- No Move reads its offset field (R56). -/
theorem exec_move_offset (m : Mode) (f : Fields) (o : BitVec 6) (s : State) :
    exec (instrOf .move m { f with offset := o }) s = exec (instrOf .move m f) s := by
  cases m <;> rfl

/-- Two Moves that agree in mode, registers and size have the same outcome. -/
theorem exec_move_congr {i j : Instr} (hi : i.opcode = .move) (hj : j.opcode = .move) (hmode : j.mode = i.mode)
    (hdest : j.fields.dest = i.fields.dest) (hsrc : j.fields.src = i.fields.src)
    (hsize : j.fields.size = i.fields.size) (s : State) : exec j s = exec i s := by
  have hfields : j.fields = ⟨i.fields.dest, i.fields.src, j.fields.offset, i.fields.size⟩ := by
    rw [← hdest, ← hsrc, ← hsize]
  rw [← instrOf_self i, ← instrOf_self j, hi, hj, hmode, hfields, exec_move_offset]

/-- Settles O23: the word is R51's formula, decoding does not read bits 13:11, executing does not read the offset, and
a Move of any mode ends by the flag update or by the bounds fault. -/
theorem everyMoveEndsWithTheFlagUpdate : Obligations.EveryMoveEndsWithTheFlagUpdate := by
  intro i hi
  have hword := encodedAs i
  rw [hi] at hword
  refine ⟨hword, fun x => decode_or_ignored x (decode_encode i), fun s hr => ⟨fun j hj hmode hdest hsrc hsize =>
    exec_move_congr hi hj hmode hdest hsrc hsize s, ?_⟩⟩
  have hends := exec_move_endsAsMove i.mode i.fields hr
  rw [← hi, instrOf_self] at hends
  rcases hends with ⟨u, hu, hrun, hsr⟩ | ⟨a, n, hfault⟩
  · exact ⟨u.updateFlags, hu, .inl ⟨hrun, flagsFrom_updateFlags hsr⟩⟩
  · exact ⟨_, hfault, .inr ⟨a, n, rfl⟩⟩

end Sys2Proof.Machine
end

section
/-! Move in the four modes without a pointer adjustment (spec/40_move.md R71 to R74). On a running core each is its
access, if it makes one, and then the state written out in the result. -/

namespace Sys2Proof.Machine

theorem exec_moveAtomic (f : Fields) {s : State} (hr : s.run = .running) :
    exec (.moveAtomic f) s = .next (s.writeReg f.dest (f.size.trunc (s.readReg f.src))).updateFlags :=
  whenRunning_running _ hr

theorem exec_moveImmediate (f : Fields) {s : State} (hr : s.run = .running) :
    exec (.moveImmediate f) s =
      withLoad s (s.pc + 4) .dword fun v => .next (s.toOperandWord.writeReg f.dest v).updateFlags :=
  whenRunning_running _ hr

theorem exec_moveMemoryDest (f : Fields) {s : State} (hr : s.run = .running) :
    exec (.moveMemoryDest f) s =
      withStore s (s.readReg f.dest) f.size (f.size.trunc (s.readReg f.src)) fun t => .next t.updateFlags :=
  whenRunning_running _ hr

theorem exec_moveMemorySrc (f : Fields) {s : State} (hr : s.run = .running) :
    exec (.moveMemorySrc f) s =
      withLoad s (s.readReg f.src) f.size fun v => .next (s.writeReg f.dest v).updateFlags :=
  whenRunning_running _ hr

/-- What a write of one register and the closing flag update do to a state `u` that differs from `s` in `pc` at most. -/
theorem writeReg_updateFlags_effect {s u : State} (hregs : SameRegs s u) (hsr : u.sr = s.sr) (hmem : u.mem = s.mem)
    (r : Reg) (v : Word) :
    OneRegSet s (u.writeReg r v).updateFlags r v ∧ (u.writeReg r v).updateFlags.last = v
      ∧ FlagsFrom s (u.writeReg r v).updateFlags v ∧ SameMemory s (u.writeReg r v).updateFlags := by
  refine ⟨fun q => ?_, rfl, flagsFrom_updateFlags hsr, ?_⟩
  · rw [updateFlags_readReg, writeReg_readReg, hregs q]
  · simp [SameMemory, hmem]

/-- Settles O15: without an access there is one state it can answer. -/
theorem moveAtomicResult : Obligations.MoveAtomicResult := by
  intro f s hr
  obtain ⟨hreg, hlast, hflags, hmem⟩ := writeReg_updateFlags_effect (s := s) (fun _ => rfl) rfl rfl f.dest
    (f.size.trunc (s.readReg f.src))
  exact ⟨encodedAs (.moveAtomic f), _, exec_moveAtomic f hr, hreg, hlast, hflags, hmem, rfl, hr⟩

/-- Settles O16: the operand word is loaded whole, and written from the state with `pc` on it. -/
theorem moveImmediateResult : Obligations.MoveImmediateResult := by
  intro f s hr
  refine ⟨encodedAs (.moveImmediate f), fun hin => ?_, fun hout => ?_⟩ <;> rw [exec_moveImmediate f hr]
  · rw [withLoad_inRange _ hin]
    obtain ⟨hreg, hlast, hflags, hmem⟩ := writeReg_updateFlags_effect (s := s) (toOperandWord_readReg s) rfl rfl
      f.dest (s.mem.readSized (s.pc + 4).toNat .dword)
    exact ⟨_, rfl, hreg, hlast, hflags, hmem, rfl, hr⟩
  · exact withLoad_outOfRange _ hout

/-- Settles O17: the store is `writeSized`, and with no register written the flags are those of the cache as it was. -/
theorem moveMemoryDestResult : Obligations.MoveMemoryDestResult := by
  intro f s hr
  refine ⟨encodedAs (.moveMemoryDest f), fun hin => ?_, fun hout => ?_⟩ <;> rw [exec_moveMemoryDest f hr]
  · rw [withStore_inRange _ hin]
    exact ⟨_, rfl, writeSized_holds _ _ _ _, writeSized_outside _ _ _ _, fun _ => rfl, rfl,
      flagsFrom_updateFlags rfl, rfl, hr⟩
  · exact withStore_outOfRange _ hout

/-- Settles O18: the value written is the one loaded at the address the source register held. -/
theorem moveMemorySrcResult : Obligations.MoveMemorySrcResult := by
  intro f s hr
  refine ⟨encodedAs (.moveMemorySrc f), fun hin => ?_, fun hout => ?_⟩ <;> rw [exec_moveMemorySrc f hr]
  · rw [withLoad_inRange _ hin]
    obtain ⟨hreg, hlast, hflags, hmem⟩ := writeReg_updateFlags_effect (s := s) (fun _ => rfl) rfl rfl f.dest
      (s.mem.readSized (s.readReg f.src).toNat f.size)
    exact ⟨_, rfl, hreg, hlast, hflags, hmem, rfl, hr⟩
  · exact withLoad_outOfRange _ hout

end Sys2Proof.Machine
end

section
/-! The fetch against the bytes of memory (spec/44_instruction_cycle.md R111). -/

namespace Sys2Proof.Machine

/-- The fetched word is the big-endian value of the four bytes at `pc`, with no premise on the alignment of `pc`. -/
theorem fetchedWord_toNat (s : State) :
    s.fetchedWord.toNat = (s.mem.readByte s.pc.toNat).toNat * 2 ^ 24 + (s.mem.readByte (s.pc.toNat + 1)).toNat * 2 ^ 16
      + (s.mem.readByte (s.pc.toNat + 2)).toNat * 2 ^ 8 + (s.mem.readByte (s.pc.toNat + 3)).toNat :=
  readSized_toNat s.mem s.pc.toNat .dword

/-- What a cycle of a running core does when the word at `pc` does not lie in memory. -/
theorem step_fetchOutOfRange {s : State} (hr : s.run = .running) (hout : s.mem.size < s.pc.toNat + 4) :
    step s = .next (s.haltedWith (.memoryBounds s.pc 4)) :=
  (whenRunning_running _ hr).trans (withLoad_outOfRange _ hout)

/-- Settles O43: the word is `fetchedWord`, which `step` decodes when it lies in memory; otherwise the fetch takes the
bounds fault. -/
theorem fetchReadsTheWordAtPc : Obligations.FetchReadsTheWordAtPc := fun s hr =>
  ⟨fun hin => ⟨s.fetchedWord, fetchedWord_toNat s, step_running hr hin⟩, fun hout => step_fetchOutOfRange hr hout⟩

end Sys2Proof.Machine
end

section
/-! Cause 3, `UnimplementedMode` (spec/60_exceptions.md R126): the modes of Push and Pop that raise it, and why every
other instruction avoids it. -/

namespace Sys2Proof

@[simp] theorem instrOf_opcode (op : Opcode) (m : Mode) (f : Fields) : (instrOf op m f).opcode = op := by
  cases op <;> cases m <;> rfl

@[simp] theorem instrOf_mode (op : Opcode) (m : Mode) (f : Fields) : (instrOf op m f).mode = m := by
  cases op <;> cases m <;> rfl

end Sys2Proof

namespace Sys2Proof.Machine

/-- Push in modes 2 to 7 raises cause 3 (R98). -/
theorem exec_push_unimplemented {m : Mode} (f : Fields) {s : State} (hr : s.run = .running) (hatomic : m ≠ .atomic)
    (himmediate : m ≠ .immediate) :
    exec (instrOf .push m f) s = .next (s.haltedWith (.unimplementedMode .push m)) := by
  cases m
  case atomic => exact absurd rfl hatomic
  case immediate => exact absurd rfl himmediate
  all_goals exact whenRunning_running _ hr

/-- Pop in modes 1 to 7 raises cause 3 (R100, R101). -/
theorem exec_pop_unimplemented {m : Mode} (f : Fields) {s : State} (hr : s.run = .running) (hatomic : m ≠ .atomic) :
    exec (instrOf .pop m f) s = .next (s.haltedWith (.unimplementedMode .pop m)) := by
  cases m
  case atomic => exact absurd rfl hatomic
  all_goals exact whenRunning_running _ hr

/-- The answer is not a state halted by cause 3. -/
def AvoidsUnimplementedMode (r : Result) : Prop :=
  ∀ (t : State) (op : Opcode) (m : Mode), r = .next t → t.run ≠ .halted (.unimplementedMode op m)

theorem avoidsUnimplementedMode_running {t : State} (h : t.run = .running) : AvoidsUnimplementedMode (.next t) := by
  rintro _ op m ⟨⟩
  simp [h]

theorem avoidsUnimplementedMode_haltedWith (s : State) {c : Cause} (h : ∀ op m, c ≠ .unimplementedMode op m) :
    AvoidsUnimplementedMode (.next (s.haltedWith c)) := by
  rintro _ op m ⟨⟩
  simpa [State.haltedWith] using h op m

theorem avoidsUnimplementedMode_memoryBounds (s : State) (a : Word) (n : Nat) :
    AvoidsUnimplementedMode (.next (s.haltedWith (.memoryBounds a n))) :=
  avoidsUnimplementedMode_haltedWith s nofun

theorem avoidsUnimplementedMode_whenRunning {s : State} {act : Result} (hr : s.run = .running)
    (h : AvoidsUnimplementedMode act) : AvoidsUnimplementedMode (whenRunning s act) := by
  rwa [whenRunning_running act hr]

/-- The fault of a checked load is cause 4. -/
theorem avoidsUnimplementedMode_withLoad {s : State} {a : Word} {sz : OperandSize} {k : Word → Result}
    (h : ∀ v, AvoidsUnimplementedMode (k v)) : AvoidsUnimplementedMode (withLoad s a sz k) := by
  intro t op m ht
  rcases withLoad_cases ht with ⟨-, rfl⟩ | ⟨-, hk⟩
  · exact avoidsUnimplementedMode_memoryBounds s a sz.bytes _ op m rfl
  · exact h _ t op m hk

/-- The fault of a checked store is cause 4. -/
theorem avoidsUnimplementedMode_withStore {s : State} {a v : Word} {sz : OperandSize} {k : State → Result}
    (h : ∀ mem, AvoidsUnimplementedMode (k { s with mem := mem })) :
    AvoidsUnimplementedMode (withStore s a sz v k) := by
  intro t op m ht
  rcases withStore_cases ht with ⟨-, rfl⟩ | ⟨-, hk⟩
  · exact avoidsUnimplementedMode_memoryBounds s a sz.bytes _ op m rfl
  · exact h _ t op m hk

/-- A Move of any mode ends running or by a bounds fault. -/
theorem exec_move_avoidsUnimplementedMode (m : Mode) (f : Fields) {s : State} (hr : s.run = .running) :
    AvoidsUnimplementedMode (exec (instrOf .move m f) s) := by
  rcases exec_move_endsAsMove m f hr with ⟨u, hu, hrun, -⟩ | ⟨a, n, hfault⟩
  · exact hu ▸ avoidsUnimplementedMode_running hrun
  · exact hfault ▸ avoidsUnimplementedMode_memoryBounds s a n

/-- Lea ends running, by cause 2 or by a bounds fault, whatever its mode. -/
theorem exec_lea_avoidsUnimplementedMode (m : Mode) (f : Fields) {s : State} (hr : s.run = .running) :
    AvoidsUnimplementedMode (exec (.lea m f) s) := by
  refine avoidsUnimplementedMode_whenRunning hr ?_
  split
  · exact avoidsUnimplementedMode_withLoad fun _ => avoidsUnimplementedMode_running hr
  · exact avoidsUnimplementedMode_haltedWith s nofun

theorem exec_pushAtomic_avoidsUnimplementedMode (f : Fields) {s : State} (hr : s.run = .running) :
    AvoidsUnimplementedMode (exec (.pushAtomic f) s) :=
  avoidsUnimplementedMode_whenRunning hr <|
    avoidsUnimplementedMode_withStore fun _ => avoidsUnimplementedMode_running hr

theorem exec_pushImmediate_avoidsUnimplementedMode (f : Fields) {s : State} (hr : s.run = .running) :
    AvoidsUnimplementedMode (exec (.pushImmediate f) s) :=
  avoidsUnimplementedMode_whenRunning hr <| avoidsUnimplementedMode_withLoad fun _ =>
    avoidsUnimplementedMode_withStore fun _ => avoidsUnimplementedMode_running hr

theorem exec_popAtomic_avoidsUnimplementedMode (f : Fields) {s : State} (hr : s.run = .running) :
    AvoidsUnimplementedMode (exec (.popAtomic f) s) :=
  avoidsUnimplementedMode_whenRunning hr <|
    avoidsUnimplementedMode_withLoad fun _ => avoidsUnimplementedMode_running hr

/-- Only the thirteen pairs can leave the core halted by cause 3. -/
theorem thirteen_of_unimplementedMode {op op' : Opcode} {m m' : Mode} {f : Fields} {s t : State}
    (hr : s.run = .running) (h : exec (instrOf op m f) s = .next t) (ht : t.run = .halted (.unimplementedMode op' m')) :
    (op = .push ∧ m ≠ .atomic ∧ m ≠ .immediate) ∨ (op = .pop ∧ m ≠ .atomic) := by
  cases op with
  | move => exact absurd ht (exec_move_avoidsUnimplementedMode m f hr t op' m' h)
  | lea => exact absurd ht (exec_lea_avoidsUnimplementedMode m f hr t op' m' h)
  | push =>
    refine .inl ⟨rfl, ?_, ?_⟩ <;> rintro rfl
    · exact exec_pushAtomic_avoidsUnimplementedMode f hr t op' m' h ht
    · exact exec_pushImmediate_avoidsUnimplementedMode f hr t op' m' h ht
  | pop =>
    refine .inr ⟨rfl, ?_⟩
    rintro rfl
    exact exec_popAtomic_avoidsUnimplementedMode f hr t op' m' h ht

/-- Settles O41: an instruction is `instrOf` of its opcode, mode and fields; the thirteen pairs raise cause 3 at once,
and every other pair ends running or by cause 2 or 4. -/
theorem unimplementedModeRaisedByThirteen : Obligations.UnimplementedModeRaisedByThirteen := by
  intro i s hr
  rw [← instrOf_self i, instrOf_opcode, instrOf_mode]
  refine ⟨?_, fun t op m h ht => thirteen_of_unimplementedMode hr h ht⟩
  rintro (⟨hop, hatomic, himmediate⟩ | ⟨hop, hatomic⟩) <;> rw [hop]
  · exact exec_push_unimplemented i.fields hr hatomic himmediate
  · exact exec_pop_unimplemented i.fields hr hatomic

end Sys2Proof.Machine
end

section
/-! The halted core (spec/60_exceptions.md R130) and the Unrecognized marker (R122). -/

namespace Sys2Proof.Machine

/-- `execute` of anything on a halted core does nothing. -/
theorem execute_halted {s : State} {c : Cause} (h : s.run = .halted c) (d : Decoded) : execute d s = .next s := by
  cases d with
  | instr i => exact exec_halted h i
  | unrecognized w => exact whenRunning_halted _ h

/-- Cycles of a halted core do nothing, however many. -/
theorem run_halted {s : State} {c : Cause} (h : s.run = .halted c) (k : Nat) : core.run k s = .next s := by
  induction k with
  | zero => exact run_zero s
  | succ k ih => exact (run_next k (step_halted h)).trans ih

/-- Every reset gives a running core (R140). -/
theorem launch_running {memSize : Nat} {image : List Byte} {pc : Word} {s : State}
    (h : launch memSize image pc = some s) : s.run = .running := by
  unfold launch at h
  split at h <;> cases h
  rfl

/-- Settles O40, by induction on the number of cycles for a run. -/
theorem haltedCoreStaysHalted : Obligations.HaltedCoreStaysHalted :=
  ⟨fun _ _ h => ⟨step_halted h, execute_halted h, run_halted h⟩, fun _ _ _ _ h => launch_running h⟩

/-- Decoding answers an instruction, or the marker with the word itself. -/
theorem decode_answers (w : Word) : (∃ i, decode w = .instr i) ∨ decode w = .unrecognized w := by
  cases hd : decode w with
  | instr i => exact .inl ⟨i, rfl⟩
  | unrecognized v =>
    obtain ⟨rfl, -⟩ := decode_eq_unrecognized hd
    exact .inr rfl

/-- The marker raises cause 1 on a running core (R113). -/
theorem execute_unrecognized (w : Word) {s : State} (hr : s.run = .running) :
    execute (.unrecognized w) s = .next (s.haltedWith (.unrecognizedOpcode w)) := whenRunning_running _ hr

/-- The incrementer leaves a halted state as it is (R112). -/
@[simp] theorem advancePc_haltedWith (s : State) (c : Cause) : (s.haltedWith c).advancePc = s.haltedWith c := rfl

/-- A cycle that fetches an unrecognized word halts at it. -/
theorem step_unrecognized {s : State} {w : Word} (hr : s.run = .running) (hf : s.canFetch)
    (hd : decode s.fetchedWord = .unrecognized w) :
    step s = .next (s.haltedWith (.unrecognizedOpcode s.fetchedWord)) := by
  obtain ⟨rfl, -⟩ := decode_eq_unrecognized hd
  rw [step_running hr hf, hd, execute_unrecognized _ hr, advance_next, advancePc_haltedWith]

/-- Settles O42: the decoder's two answers, and the marker's one effect on a running core, alone and in a cycle. -/
theorem unrecognizedWordHalts : Obligations.UnrecognizedWordHalts :=
  ⟨decode_answers, fun w _ hr => execute_unrecognized w hr, fun _ _ hr hf hd => step_unrecognized hr hf hd⟩

end Sys2Proof.Machine
end

section
/-! What `execute` does, said once for all instructions: on a running core, the fault the tables give where there is
one, and otherwise the state `completed` writes out (spec/60_exceptions.md R121, R128). -/

namespace Sys2Proof.Machine

/-- The fault `c` raised from `s` where there is one, and otherwise the answer `r`. -/
def faultOr (s : State) (c : Option Cause) (r : Result) : Result :=
  match c with
  | some c => .next (s.haltedWith c)
  | none => r

theorem boundsFault_inRange {m : Memory} {a : Word} {n : Nat} (h : a.toNat + n ≤ m.size) : boundsFault m a n = none :=
  if_pos h

theorem boundsFault_outOfRange {m : Memory} {a : Word} {n : Nat} (h : m.size < a.toNat + n) :
    boundsFault m a n = some (.memoryBounds a n) :=
  if_neg (Nat.not_le.2 h)

theorem boundsFault_eq_none {m : Memory} {a : Word} {n : Nat} (h : boundsFault m a n = none) :
    a.toNat + n ≤ m.size := by
  by_contra hout
  rw [boundsFault_outOfRange (Nat.not_le.1 hout)] at h
  cases h

theorem boundsFault_eq_some {m : Memory} {a : Word} {n : Nat} {c : Cause} (h : boundsFault m a n = some c) :
    m.size < a.toNat + n ∧ c = .memoryBounds a n := by
  by_cases hin : a.toNat + n ≤ m.size
  · rw [boundsFault_inRange hin] at h; cases h
  · rw [boundsFault_outOfRange (Nat.not_le.1 hin)] at h; cases h
    exact ⟨Nat.not_le.1 hin, rfl⟩

/-- A checked load is the bounds fault, or what comes after the load. -/
theorem withLoad_eq_faultOr (s : State) (a : Word) (sz : OperandSize) (k : Word → Result) :
    withLoad s a sz k = faultOr s (boundsFault s.mem a sz.bytes) (k (s.mem.readSized a.toNat sz)) := by
  by_cases hin : a.toNat + sz.bytes ≤ s.mem.size
  · rw [withLoad_inRange k hin, boundsFault_inRange hin]; rfl
  · have hout := Nat.not_le.1 hin
    rw [withLoad_outOfRange k hout, boundsFault_outOfRange hout]; rfl

/-- The in-range case of a checked store. -/
def State.storeAt (s : State) (a : Word) (sz : OperandSize) (v : Word) : State :=
  { s with mem := s.mem.writeSized a.toNat v sz }

/-- A checked store is the bounds fault, or what comes after the store. -/
theorem withStore_eq_faultOr (s : State) (a : Word) (sz : OperandSize) (v : Word) (k : State → Result) :
    withStore s a sz v k = faultOr s (boundsFault s.mem a sz.bytes) (k (s.storeAt a sz v)) := by
  by_cases hin : a.toNat + sz.bytes ≤ s.mem.size
  · rw [withStore_inRange k hin, boundsFault_inRange hin]; rfl
  · have hout := Nat.not_le.1 hin
    rw [withStore_outOfRange k hout, boundsFault_outOfRange hout]; rfl

section

variable (s : State) (a : Word) (sz : OperandSize) (v : Word)

@[simp] theorem storeAt_readReg (q : Reg) : (s.storeAt a sz v).readReg q = s.readReg q := rfl
@[simp] theorem storeAt_last : (s.storeAt a sz v).last = s.last := rfl
@[simp] theorem storeAt_pc : (s.storeAt a sz v).pc = s.pc := rfl
@[simp] theorem storeAt_sr : (s.storeAt a sz v).sr = s.sr := rfl
@[simp] theorem storeAt_run : (s.storeAt a sz v).run = s.run := rfl
@[simp] theorem storeAt_mem : (s.storeAt a sz v).mem = s.mem.writeSized a.toNat v sz := rfl

end

/-- The operand word, where it lies in memory (spec/30_encoding.md R61). -/
def State.operandWord (s : State) : Word := s.mem.readSized (s.pc + 4).toNat .dword

/-- The state an instruction without a fault ends in, before the closing advance of `pc`. The thirteen instructions
that always fault end in none. -/
def completed (s : State) : Instr → State
  | .moveAtomic f => (s.writeReg f.dest (f.size.trunc (s.readReg f.src))).updateFlags
  | .moveImmediate f => (s.toOperandWord.writeReg f.dest s.operandWord).updateFlags
  | .moveMemoryDest f => (s.storeAt (s.readReg f.dest) f.size (f.size.trunc (s.readReg f.src))).updateFlags
  | .moveMemorySrc f => (s.writeReg f.dest (s.mem.readSized (s.readReg f.src).toNat f.size)).updateFlags
  | .moveMemoryDestInc f =>
    ((s.storeAt (s.readReg f.dest) f.size (f.size.trunc (s.readReg f.src))).incReg f.dest f.size).updateFlags
  | .moveMemorySrcInc f =>
    ((s.writeReg f.dest (s.mem.readSized (s.readReg f.src).toNat f.size)).incReg f.src f.size).updateFlags
  | .moveMemoryDestDec f =>
    ((s.storeAt (s.readReg f.dest) f.size (f.size.trunc (s.readReg f.src))).decReg f.dest f.size).updateFlags
  | .moveMemorySrcDec f =>
    ((s.writeReg f.dest (s.mem.readSized (s.readReg f.src).toNat f.size)).decReg f.src f.size).updateFlags
  | .lea _ f => s.toOperandWord.writeReg f.dest s.operandWord
  | .pushAtomic f =>
    (s.storeAt (s.readReg stackReg) f.size (f.size.trunc (s.readReg f.src))).decReg stackReg f.size
  | .pushImmediate f =>
    (s.storeAt (s.readReg stackReg) f.size (f.size.trunc s.operandWord)).toOperandWord.decReg stackReg f.size
  | .popAtomic f =>
    (s.incReg stackReg f.size).writeReg f.dest (s.mem.readSized (s.readReg stackReg).toNat f.size)
  | _ => s

theorem faultOf_moveImmediate (f : Fields) (s : State) :
    Instr.faultOf (.moveImmediate f) s = boundsFault s.mem (s.pc + 4) 4 := by
  show (boundsFault s.mem (s.pc + 4) 4).orElse (fun _ => none) = _
  cases boundsFault s.mem (s.pc + 4) 4 <;> rfl

theorem faultOf_lea_address (m : Mode) {f : Fields} (s : State) (hd : 16 ≤ f.dest.val) :
    Instr.faultOf (.lea m f) s = boundsFault s.mem (s.pc + 4) 4 := by
  have hallowed : (Instr.lea m f).destAllowed = true := decide_eq_true hd
  simp [Instr.faultOf, hallowed, Instr.modeAllowed, Instr.opcode, Instr.mode, Instr.hasOperandWord, Instr.dataAddr]

theorem faultOf_lea_data (m : Mode) {f : Fields} (s : State) (hd : f.dest.val < 16) :
    Instr.faultOf (.lea m f) s = some (.preconditionViolation f.dest) :=
  if_pos (decide_eq_false (Nat.not_le.2 hd))

theorem faultOf_pushImmediate (f : Fields) (s : State) :
    Instr.faultOf (.pushImmediate f) s = (boundsFault s.mem (s.pc + 4) 4).orElse fun _ =>
      boundsFault s.mem (s.readReg stackReg) f.size.bytes := rfl

theorem exec_moveImmediate_eq_faultOr (f : Fields) {s : State} (hr : s.run = .running) :
    exec (.moveImmediate f) s
      = faultOr s (Instr.faultOf (.moveImmediate f) s) (.next (completed s (.moveImmediate f))) := by
  rw [faultOf_moveImmediate, exec_moveImmediate f hr]
  exact withLoad_eq_faultOr ..

/-- Lea's precondition comes first, then the operand word (R128). -/
theorem exec_lea_eq_faultOr (m : Mode) (f : Fields) {s : State} (hr : s.run = .running) :
    exec (.lea m f) s = faultOr s (Instr.faultOf (.lea m f) s) (.next (completed s (.lea m f))) := by
  by_cases hd : 16 ≤ f.dest.val
  · rw [faultOf_lea_address m s hd]
    have hcheck : isAddressReg f.dest = true := decide_eq_true hd
    exact ((whenRunning_running _ hr).trans (if_pos hcheck)).trans (withLoad_eq_faultOr ..)
  · rw [faultOf_lea_data m s (Nat.not_le.1 hd)]
    have hcheck : ¬ isAddressReg f.dest = true := by simpa [isAddressReg] using hd
    exact (whenRunning_running _ hr).trans (if_neg hcheck)

/-- Push Immediate checks the operand word first, then the stack (R128). -/
theorem exec_pushImmediate_eq_faultOr (f : Fields) {s : State} (hr : s.run = .running) :
    exec (.pushImmediate f) s
      = faultOr s (Instr.faultOf (.pushImmediate f) s) (.next (completed s (.pushImmediate f))) := by
  have hexec : exec (.pushImmediate f) s = faultOr s (boundsFault s.mem (s.pc + 4) 4)
      (faultOr s (boundsFault s.mem (s.readReg stackReg) f.size.bytes) (.next (completed s (.pushImmediate f)))) :=
    ((whenRunning_running _ hr).trans (withLoad_eq_faultOr ..)).trans (congrArg _ (withStore_eq_faultOr ..))
  rw [hexec, faultOf_pushImmediate]
  cases boundsFault s.mem (s.pc + 4) 4 <;> rfl

/-- The whole of `execute` on a running core: the one fault of the tables, or the completed state. -/
theorem exec_eq_faultOr (i : Instr) {s : State} (hr : s.run = .running) :
    exec i s = faultOr s (i.faultOf s) (.next (completed s i)) := by
  cases i with
  | moveAtomic f => exact exec_moveAtomic f hr
  | moveImmediate f => exact exec_moveImmediate_eq_faultOr f hr
  | lea m f => exact exec_lea_eq_faultOr m f hr
  | pushImmediate f => exact exec_pushImmediate_eq_faultOr f hr
  | moveMemorySrc f | moveMemorySrcInc f | moveMemorySrcDec f | popAtomic f =>
    exact (whenRunning_running _ hr).trans (withLoad_eq_faultOr ..)
  | moveMemoryDest f | moveMemoryDestInc f | moveMemoryDestDec f | pushAtomic f =>
    exact (whenRunning_running _ hr).trans (withStore_eq_faultOr ..)
  | pushMemoryDest f | pushMemorySrc f | pushMemoryDestInc f | pushMemorySrcInc f | pushMemoryDestDec f
  | pushMemorySrcDec f | popImmediate f | popMemoryDest f | popMemorySrc f | popMemoryDestInc f | popMemorySrcInc f
  | popMemoryDestDec f | popMemorySrcDec f =>
    exact whenRunning_running _ hr

theorem exec_completes {i : Instr} {s : State} (hr : s.run = .running) (h : i.faultOf s = none) :
    exec i s = .next (completed s i) := by
  rw [exec_eq_faultOr i hr, h]; rfl

theorem exec_faults {i : Instr} {s : State} {c : Cause} (hr : s.run = .running) (h : i.faultOf s = some c) :
    exec i s = .next (s.haltedWith c) := by
  rw [exec_eq_faultOr i hr, h]; rfl

/-- Everything `execute` of an instruction can answer. -/
theorem exec_cases {i : Instr} {s t : State} (h : exec i s = .next t) :
    (∃ c, s.run = .halted c ∧ t = s)
      ∨ (s.run = .running ∧ ∃ c, i.faultOf s = some c ∧ t = s.haltedWith c)
      ∨ (s.run = .running ∧ i.faultOf s = none ∧ t = completed s i) := by
  cases hr : s.run with
  | halted c => rw [exec_halted hr] at h; cases h; exact .inl ⟨c, rfl, rfl⟩
  | running =>
    cases hf : i.faultOf s with
    | some c => rw [exec_faults hr hf] at h; cases h; exact .inr (.inl ⟨rfl, c, rfl, rfl⟩)
    | none => rw [exec_completes hr hf] at h; cases h; exact .inr (.inr ⟨rfl, rfl, rfl⟩)

/-- A next state is the state before with another run state at most, or the completed one. -/
theorem exec_stopped_or_completed {i : Instr} {s t : State} (h : exec i s = .next t) :
    (∃ r, t = { s with run := r }) ∨ t = completed s i := by
  rcases exec_cases h with ⟨c, -, rfl⟩ | ⟨-, c, -, rfl⟩ | ⟨-, -, rfl⟩
  · exact .inl ⟨t.run, rfl⟩
  · exact .inl ⟨.halted c, rfl⟩
  · exact .inr rfl

/-! ### What the completed state keeps and what it holds -/

variable (s : State) (i : Instr)

@[simp] theorem completed_run : (completed s i).run = s.run := by
  cases i <;> rfl

/-- `execute` moves `pc` onto the operand word where there is one (spec/10_state.md R16). -/
theorem completed_pc : (completed s i).pc = s.pc + if i.hasOperandWord then 4 else 0 := by
  cases i <;> simp [completed, Instr.hasOperandWord, Instr.opcode, Instr.mode]

/-- Memory changes at most by one sized write at the address of the instruction's data access. -/
theorem completed_mem : (completed s i).mem = s.mem ∨ ∃ a v, Instr.dataAddr i s = some a
    ∧ (completed s i).mem = s.mem.writeSized a.toNat v i.fields.size := by
  cases i with
  | moveMemoryDest | moveMemoryDestInc | moveMemoryDestDec | pushAtomic | pushImmediate => exact .inr ⟨_, _, rfl, rfl⟩
  | _ => exact .inl rfl

/-- No instruction but a Move touches the status register (spec/42_push_pop.md R102). -/
theorem completed_sr {i : Instr} (h : i.opcode ≠ .move) : (completed s i).sr = s.sr := by
  cases i with
  | moveAtomic | moveImmediate | moveMemoryDest | moveMemorySrc | moveMemoryDestInc | moveMemorySrcInc
  | moveMemoryDestDec | moveMemorySrcDec => exact absurd rfl h
  | _ => rfl

/-- A Move ends with the flag update. -/
theorem completed_flagsFrom {i : Instr} (h : i.opcode = .move) : FlagsFrom s (completed s i) (completed s i).last := by
  cases i with
  | moveAtomic | moveImmediate | moveMemoryDest | moveMemorySrc | moveMemoryDestInc | moveMemorySrcInc
  | moveMemoryDestDec | moveMemorySrcDec => exact flagsFrom_updateFlags rfl
  | _ => cases h

/-- Bits 31:2 of the status register are written by nothing (spec/10_state.md R20). -/
theorem completed_reserved {b : Nat} (hb : 2 ≤ b) : (completed s i).sr.getLsbD b = s.sr.getLsbD b := by
  by_cases h : i.opcode = .move
  · exact (completed_flagsFrom s h).2.2 b hb
  · rw [completed_sr s h]

/-- Registers outside the table's list keep their content (spec/10_state.md R12). -/
theorem completed_readReg {q : Reg} (h : q ∉ i.writes) : (completed s i).readReg q = s.readReg q := by
  cases i <;> simp_all [completed, Instr.writes, Instr.opcode, Instr.mode, Instr.fields, stackReg]

/-- The cache holds the register written last. -/
theorem completed_last {i : Instr} {r : Reg} (h : i.writes.getLast? = some r) :
    (completed s i).last = (completed s i).readReg r := by
  cases i <;> cases h <;> simp [completed, stackReg, Instr.fields]

/-- An instruction that writes no register leaves the cache. -/
theorem completed_last_of_no_writes {i : Instr} (h : i.writes.getLast? = none) : (completed s i).last = s.last := by
  cases i <;> cases h <;> rfl

end Sys2Proof.Machine
end

section
/-! The invariant and termination: what a fault leaves, what completing leaves, and one cycle put together from them
(spec/10_state.md R20, R24; spec/44_instruction_cycle.md R116). -/

namespace Sys2Proof.Machine

/-! ### The fault of an instruction -/

theorem boundsFault_justified {m : Memory} {a : Word} {n : Nat} {c : Cause} (hn : n = 1 ∨ n = 2 ∨ n = 4)
    (h : boundsFault m a n = some c) : c.justified m.size := by
  obtain ⟨hout, rfl⟩ := boundsFault_eq_some h
  exact ⟨hn, hout⟩

theorem bytes_width (sz : OperandSize) : sz.bytes = 1 ∨ sz.bytes = 2 ∨ sz.bytes = 4 := by
  cases sz <;> decide

theorem unimplementedMode_justified {i : Instr} (size : Nat) (h : i.modeAllowed = false) :
    (Cause.unimplementedMode i.opcode i.mode).justified size := by
  cases i with
  | pushMemoryDest | pushMemorySrc | pushMemoryDestInc | pushMemorySrcInc | pushMemoryDestDec | pushMemorySrcDec =>
    exact .inl ⟨rfl, nofun, nofun⟩
  | popImmediate | popMemoryDest | popMemorySrc | popMemoryDestInc | popMemorySrcInc | popMemoryDestDec
  | popMemorySrcDec => exact .inr ⟨rfl, nofun⟩
  | _ => cases h

theorem preconditionViolation_justified {i : Instr} (size : Nat) (h : i.destAllowed = false) :
    (Cause.preconditionViolation i.fields.dest).justified size := by
  cases i with
  | lea m f => exact Nat.not_le.1 (of_decide_eq_false h)
  | _ => cases h

/-- The four places a fault of the tables comes from, in their order (R128). -/
theorem faultOf_cases {i : Instr} {s : State} {c : Cause} (h : i.faultOf s = some c) :
    (i.destAllowed = false ∧ c = .preconditionViolation i.fields.dest)
      ∨ (i.modeAllowed = false ∧ c = .unimplementedMode i.opcode i.mode)
      ∨ (i.hasOperandWord = true ∧ boundsFault s.mem (s.pc + 4) 4 = some c)
      ∨ ∃ a, Instr.dataAddr i s = some a ∧ boundsFault s.mem a i.fields.size.bytes = some c := by
  unfold Instr.faultOf at h
  split at h
  · cases h; exact .inl ⟨‹_›, rfl⟩
  split at h
  · cases h; exact .inr (.inl ⟨‹_›, rfl⟩)
  refine .inr (.inr ?_)
  rcases (Option.orElse_eq_some _ _ _).1 h with hoperand | ⟨-, hdata⟩
  · split at hoperand
    · exact .inl ⟨‹_›, hoperand⟩
    · cases hoperand
  · exact .inr (Option.bind_eq_some_iff.1 hdata)

/-- Without a fault every access of the instruction lies in memory. -/
theorem accesses_inRange {i : Instr} {s : State} (h : i.faultOf s = none) :
    (i.hasOperandWord = true → (s.pc + 4).toNat + 4 ≤ s.mem.size)
      ∧ ∀ a, Instr.dataAddr i s = some a → a.toNat + i.fields.size.bytes ≤ s.mem.size := by
  unfold Instr.faultOf at h
  split at h
  · cases h
  split at h
  · cases h
  obtain ⟨hoperand, hdata⟩ := (Option.orElse_eq_none _ _).1 h
  refine ⟨fun hw => boundsFault_eq_none (by simpa [hw] using hoperand), fun a ha => boundsFault_eq_none ?_⟩
  simpa [ha] using hdata

/-- A cause the tables give is so (R121). -/
theorem faultOf_justified {i : Instr} {s : State} {c : Cause} (h : i.faultOf s = some c) : c.justified s.mem.size := by
  rcases faultOf_cases h with ⟨hd, rfl⟩ | ⟨hm, rfl⟩ | ⟨-, hb⟩ | ⟨a, -, hb⟩
  · exact preconditionViolation_justified _ hd
  · exact unimplementedMode_justified _ hm
  · exact boundsFault_justified (.inr (.inr rfl)) hb
  · exact boundsFault_justified (bytes_width _) hb

theorem unrecognizedOpcode_justified {w : Word} (size : Nat) (h : opcodeOfId (opcodeField w) = none) :
    (Cause.unrecognizedOpcode w).justified size := by
  refine ⟨?_, ?_, ?_, ?_⟩ <;> intro he <;> rw [he] at h <;> cases h

/-! ### The invariant -/

theorem inv_haltedWith {s : State} {c : Cause} (h : Inv s) (hc : c.justified s.mem.size) : Inv (s.haltedWith c) where
  memory := h.memory
  reserved := h.reserved
  flags := h.flags
  cause := by rintro _ ⟨⟩; exact hc

/-- Flags computed from one value exclude each other (R24): zero has no sign. -/
theorem flagsFrom_exclusive {s t : State} {v : Word} (h : FlagsFrom s t v) : ¬ (t.zFlag = true ∧ t.nFlag = true) := by
  obtain ⟨hz, hn, -⟩ := h
  rw [hz, hn, decide_eq_true_iff]
  rintro ⟨rfl, hsign⟩
  simp at hsign

@[simp] theorem completed_mem_size (s : State) (i : Instr) : (completed s i).mem.size = s.mem.size := by
  rcases completed_mem s i with h | ⟨a, v, -, h⟩ <;> rw [h]
  exact writeSized_size ..

theorem completed_mem_wf {i : Instr} {s : State} (hf : i.faultOf s = none) (h : s.mem.wf) :
    (completed s i).mem.wf := by
  rcases completed_mem s i with hm | ⟨a, v, ha, hm⟩ <;> rw [hm]
  · exact h
  · exact writeSized_wf _ v _ h ((accesses_inRange hf).2 a ha)

theorem completed_flags_exclusive {s : State} (i : Instr) (h : Inv s) :
    ¬ ((completed s i).zFlag = true ∧ (completed s i).nFlag = true) := by
  by_cases hop : i.opcode = .move
  · exact flagsFrom_exclusive (completed_flagsFrom s hop)
  · simpa only [State.zFlag, State.nFlag, completed_sr s hop] using h.flags

theorem inv_completed {i : Instr} {s : State} (hr : s.run = .running) (hf : i.faultOf s = none) (h : Inv s) :
    Inv (completed s i) where
  memory := completed_mem_wf hf h.memory
  reserved b hb := (completed_reserved s i hb).trans (h.reserved b hb)
  flags := completed_flags_exclusive i h
  cause c hc := by rw [completed_run, hr] at hc; cases hc

theorem inv_advancePc {s : State} (h : Inv s) : Inv s.advancePc where
  memory := by simpa using h.memory
  reserved := by simpa using h.reserved
  flags := by simpa [State.zFlag, State.nFlag] using h.flags
  cause := by simpa using h.cause

/-- `execute` of an instruction keeps the invariant and the capacity. -/
theorem exec_keeps_inv {i : Instr} {s t : State} (hinv : Inv s) (h : exec i s = .next t) :
    Inv t ∧ t.mem.size = s.mem.size := by
  rcases exec_cases h with ⟨-, -, rfl⟩ | ⟨-, c, hf, rfl⟩ | ⟨hr, hf, rfl⟩
  · exact ⟨hinv, rfl⟩
  · exact ⟨inv_haltedWith hinv (faultOf_justified hf), rfl⟩
  · exact ⟨inv_completed hr hf hinv, completed_mem_size ..⟩

/-- Settles O56: each end a cycle can have keeps the invariant, the fetch's bounds fault and cause 1 because they are
so, an instruction by `exec_keeps_inv`. -/
theorem stepKeepsTheInvariant : Obligations.StepKeepsTheInvariant := by
  intro s t hinv h
  rcases step_inversion h with ⟨-, rfl⟩ | ⟨-, hf, rfl⟩ | ⟨-, -, hd, rfl⟩ | ⟨-, -, i, u, -, hu, rfl⟩
  · exact ⟨hinv, rfl⟩
  · exact ⟨inv_haltedWith hinv ⟨.inr (.inr rfl), Nat.not_le.1 hf⟩, rfl⟩
  · exact ⟨inv_haltedWith hinv (unrecognizedOpcode_justified _ (decode_eq_unrecognized hd).2), rfl⟩
  · obtain ⟨hu, hsize⟩ := exec_keeps_inv hinv hu
    exact ⟨inv_advancePc hu, by simpa using hsize⟩

/-! ### Termination -/

/-- A completed cycle: the fetch was in range, and the decoded instruction met no fault. -/
theorem completesStep_cases {s t : State} (h : CompletesStep s t) :
    s.canFetch ∧ ∃ i, decode s.fetchedWord = .instr i ∧ i.faultOf s = none
      ∧ t = (completed s i).setPc ((completed s i).pc + 4) := by
  obtain ⟨hr, hstep, ht⟩ := h
  rcases step_inversion hstep with ⟨⟨c, hc⟩, -⟩ | ⟨-, -, rfl⟩ | ⟨-, -, -, rfl⟩ | ⟨-, hf, i, u, hd, hu, rfl⟩
  · rw [hr] at hc; cases hc
  · cases ht
  · cases ht
  · rw [advancePc_run] at ht
    rw [advancePc_of_running _ ht]
    rcases exec_cases hu with ⟨c, hc, -⟩ | ⟨-, c, -, rfl⟩ | ⟨-, hnone, rfl⟩
    · rw [hr] at hc; cases hc
    · cases ht
    · exact ⟨hf, i, hd, hnone, rfl⟩

theorem toNat_add_four {a : Word} (h : a.toNat + 4 < 2 ^ 32) : (a + 4).toNat = a.toNat + 4 := by
  bv_omega

/-- Below 2^32 bytes `pc` does not wrap in a completed cycle: every word it moves past lies in memory. -/
theorem completesStep_pc {s t : State} (hsize : s.mem.size < 2 ^ 32) (h : CompletesStep s t) :
    s.pc.toNat + 4 ≤ t.pc.toNat ∧ t.pc.toNat ≤ s.mem.size := by
  obtain ⟨hf, i, -, hnone, rfl⟩ := completesStep_cases h
  have hfetch : s.pc.toNat + 4 ≤ s.mem.size := hf
  have hoperand := (accesses_inRange hnone).1
  rw [setPc_pc, completed_pc]
  have hnext : (s.pc + 4).toNat = s.pc.toNat + 4 := toNat_add_four (by omega)
  cases hw : i.hasOperandWord with
  | true =>
    have hword := hoperand hw
    have hafter : (s.pc + 4 + 4).toNat = (s.pc + 4).toNat + 4 := toNat_add_four (by omega)
    rw [if_pos rfl, hafter, hnext]
    omega
  | false =>
    rw [if_neg Bool.false_ne_true, add_zero, hnext]
    omega

theorem completesStep_size {s t : State} (h : CompletesStep s t) : t.mem.size = s.mem.size := by
  obtain ⟨-, i, -, -, rfl⟩ := completesStep_cases h
  exact completed_mem_size ..

/-- Every cycle answers a next state. -/
theorem step_answers (s : State) : ∃ t, step s = .next t := by
  cases hr : s.run with
  | halted c => exact ⟨s, step_halted hr⟩
  | running =>
    by_cases hf : s.canFetch
    · cases hd : decode s.fetchedWord with
      | unrecognized w => exact ⟨_, step_unrecognized hr hf hd⟩
      | instr i =>
        obtain ⟨u, hu⟩ := exec_answers i s
        exact ⟨u.advancePc, by rw [step_running hr hf, hd]; exact congrArg advance hu⟩
    · exact ⟨_, step_fetchOutOfRange hr (Nat.not_le.1 hf)⟩

/-- With fewer than `n + 1` words from `pc` to the end of memory, `n + 1` cycles reach a halted state. -/
theorem halts_within (n : Nat) {s : State} (hsize : s.mem.size < 2 ^ 32)
    (hpc : s.mem.size < s.pc.toNat + 4 * (n + 1)) :
    ∃ k, k ≤ n + 1 ∧ ∃ t, core.run k s = .next t ∧ t.isHalted := by
  induction n generalizing s with
  | zero =>
    by_cases hr : s.run = .running
    · exact ⟨1, le_refl _, _, run_next 0 (step_fetchOutOfRange hr hpc), nofun⟩
    · exact ⟨0, Nat.zero_le _, s, run_zero s, hr⟩
  | succ n ih =>
    obtain ⟨u, hu⟩ := step_answers s
    by_cases hcompletes : CompletesStep s u
    · obtain ⟨hraises, -⟩ := completesStep_pc hsize hcompletes
      have hsame := completesStep_size hcompletes
      obtain ⟨k, hk, t, hrun, ht⟩ := ih (hsame ▸ hsize) (by omega)
      exact ⟨k + 1, Nat.succ_le_succ hk, t, (run_next k hu).trans hrun, ht⟩
    · by_cases hr : s.run = .running
      · exact ⟨1, by omega, u, run_next 0 hu, fun hur => hcompletes ⟨hr, hu, hur⟩⟩
      · exact ⟨0, Nat.zero_le _, s, run_zero s, hr⟩

/-- Settles O57: a completed cycle moves `pc` past words that lie in memory, and by induction on how many are left a
run halts. -/
theorem everyRunHalts : Obligations.EveryRunHalts := fun s hsize =>
  ⟨fun _ h => completesStep_pc hsize h, halts_within (s.mem.size / 4) hsize (by omega)⟩

end Sys2Proof.Machine
end

section
/-! The decoder against the encoder, the fields of a word and the rows of the opcode table (spec/30_encoding.md R51 to
R64). -/

namespace Sys2Proof

/-- The bytes of an instruction decode to it and leave what follows them (R41, R64). -/
theorem decodeBytes_encodeBytes (i : Instr) (rest : List Byte) :
    decodeBytes (encodeBytes i ++ rest) = .instr i rest := by
  simp only [encodeBytes, bytesOfWord, List.cons_append, List.nil_append, decodeBytes, wordOfBytes_byteOf,
    decode_encode]

/-- Settles O2: every field comes back from its own bits, and a word from its own bytes. -/
theorem decodeOfEncode : Obligations.DecodeOfEncode := fun i => ⟨decode_encode i, decodeBytes_encodeBytes i⟩

/-- Settles O1: the six words are evaluated. -/
theorem wordsFromTheLayoutDecode : Obligations.WordsFromTheLayoutDecode := by
  unfold Obligations.WordsFromTheLayoutDecode
  decide

/-- Settles O5: R51's formula, with the opcode ids and mode codes as numbers. -/
theorem encodeFollowsTheFormula : Obligations.EncodeFollowsTheFormula := by
  intro i
  cases i with
  | lea m f => cases m <;> exact encodedAs (.lea _ f)
  | _ => exact encodedAs _

/-! ### The codes of opcodes, modes and sizes (R52, R54, R58) -/

theorem opcode_id_range (op : Opcode) : 1 ≤ op.id.toNat ∧ op.id.toNat ≤ 4 := by
  cases op <;> decide

theorem size_code_le (sz : OperandSize) : sz.code.toNat ≤ 2 := by
  cases sz <;> decide

/-- The ids 1 to 4 are those of the four opcodes. -/
theorem exists_opcode_of_range {o : BitVec 8} (h1 : 1 ≤ o.toNat) (h4 : o.toNat ≤ 4) : ∃ op : Opcode, o = op.id := by
  have hvalues : o.toNat = 1 ∨ o.toNat = 2 ∨ o.toNat = 3 ∨ o.toNat = 4 := by omega
  rcases hvalues with h | h | h | h
  · exact ⟨.move, BitVec.eq_of_toNat_eq h⟩
  · exact ⟨.lea, BitVec.eq_of_toNat_eq h⟩
  · exact ⟨.push, BitVec.eq_of_toNat_eq h⟩
  · exact ⟨.pop, BitVec.eq_of_toNat_eq h⟩

theorem eq_id_of_opcodeOfId {o : BitVec 8} {op : Opcode} (h : opcodeOfId o = some op) : o = op.id := by
  unfold opcodeOfId at h
  split_ifs at h <;> cases h <;> assumption

@[simp] theorem code_modeOfCode (m : BitVec 3) : (modeOfCode m).code = m := by
  revert m; decide

theorem code_sizeOfCode {z : BitVec 2} (h : z.toNat ≠ 3) : (sizeOfCode z).code = z := by
  revert z; decide

/-! ### Which words are recognised, and what they decode to -/

theorem decode_of_opcodeField {w : Word} {op : Opcode} (h : opcodeField w = op.id) :
    decode w = .instr (instrOf op (modeOfCode (modeField w)) (fieldsOfWord w)) := by
  rw [decode, h, opcodeOfId_id]

/-- A word decodes to an instruction exactly when its opcode id is one of the four. -/
theorem decode_eq_instr_iff {w : Word} {i : Instr} : decode w = .instr i ↔
    ∃ op : Opcode, opcodeField w = op.id ∧ i = instrOf op (modeOfCode (modeField w)) (fieldsOfWord w) := by
  constructor
  · intro h
    obtain ⟨op, hop, hi⟩ := decode_eq_instr h
    exact ⟨op, eq_id_of_opcodeOfId hop, hi⟩
  · rintro ⟨op, hop, rfl⟩
    exact decode_of_opcodeField hop

theorem exists_opcode_of_word {w : Word} (h : 1 ≤ w.toNat % 2 ^ 8 ∧ w.toNat % 2 ^ 8 ≤ 4) :
    ∃ op : Opcode, opcodeField w = op.id := by
  rw [← opcodeField_toNat] at h
  exact exists_opcode_of_range h.1 h.2

/-- Settles O4: the opcode is the one whose id stands in the low bits, and every field is the slice the decoder takes;
a word with another id has no opcode. -/
theorem decodeExtractsEveryField : Obligations.DecodeExtractsEveryField := by
  refine fun w => ⟨fun hid => ?_, fun hid => ?_⟩
  · obtain ⟨op, hop⟩ := exists_opcode_of_word hid
    refine ⟨_, decode_of_opcodeField hop, ?_, ?_, ?_⟩
    · rw [← opcodeField_toNat, hop, instrOf_opcode]
      cases op <;> rfl
    · rw [← modeField_toNat, instrOf_mode]
      generalize modeField w = m
      revert m; decide
    · rw [instrOf_fields]
      refine ⟨destField_toNat w, srcField_toNat w, offsetField_toNat w, ?_⟩
      rw [← sizeField_toNat]
      show _ = some (sizeOfCode (sizeField w))
      generalize sizeField w = z
      revert z; decide
  · rcases Machine.decode_answers w with ⟨i, hi⟩ | hw
    · obtain ⟨op, hop, -⟩ := decode_eq_instr_iff.1 hi
      rw [← opcodeField_toNat, hop] at hid
      exact absurd (opcode_id_range op) hid
    · exact hw

/-- The word of what a word in range decodes to is that word (R64). -/
theorem encode_of_decode {w : Word} {i : Instr} (h : decode w = .instr i) (hunread : w.toNat / 2 ^ 11 % 2 ^ 3 = 0)
    (hsize : w.toNat / 2 ^ 30 ≠ 3) : encode i = w := by
  obtain ⟨op, hop, rfl⟩ := decode_eq_instr_iff.1 h
  have hcode : (sizeOfCode (sizeField w)).code = sizeField w := code_sizeOfCode (by rwa [sizeField_toNat])
  apply BitVec.eq_of_toNat_eq
  rw [encodedAs, instrOf_opcode, instrOf_mode, instrOf_fields, ← hop, code_modeOfCode]
  simp only [fieldsOfWord, hcode, BitVec.val_toFin, opcodeField_toNat, modeField_toNat, destField_toNat,
    srcField_toNat, offsetField_toNat, sizeField_toNat]
  omega

/-- What the word of an instruction satisfies: a known opcode id, zero in the unread bits, a size pattern below 3. -/
theorem encode_inRange (i : Instr) : 1 ≤ (encode i).toNat % 2 ^ 8 ∧ (encode i).toNat % 2 ^ 8 ≤ 4
    ∧ (encode i).toNat / 2 ^ 11 % 2 ^ 3 = 0 ∧ (encode i).toNat / 2 ^ 30 ≠ 3 := by
  have hword : (encode i).toNat = _ := encodedAs i
  have hop := opcode_id_range i.opcode
  have hmode := i.mode.code.isLt
  have hdest := i.fields.dest.isLt
  have hsrc := i.fields.src.isLt
  have hoffset := i.fields.offset.isLt
  have hsize := size_code_le i.fields.size
  omega

/-- Settles O3: the word of an instruction is in range, and a word in range is put together again from its fields. -/
theorem encodeOfDecodeExactlyInRange : Obligations.EncodeOfDecodeExactlyInRange := by
  refine fun w => ⟨?_, ?_⟩
  · rintro ⟨i, -, rfl⟩
    exact encode_inRange i
  · rintro ⟨h1, h4, hunread, hsize⟩
    obtain ⟨op, hop⟩ := exists_opcode_of_word ⟨h1, h4⟩
    exact ⟨_, decode_of_opcodeField hop, encode_of_decode (decode_of_opcodeField hop) hunread hsize⟩

/-! ### The rows of the opcode table (R59) -/

theorem row_of_lea {i : Instr} (h : i.opcode = .lea) : i.rowMask = 0xFF#32 ∧ i.rowMatch.toNat = i.opcode.id.toNat := by
  cases i with
  | lea m f => exact ⟨rfl, rfl⟩
  | _ => cases h

theorem row_of_not_lea {i : Instr} (h : i.opcode ≠ .lea) :
    i.rowMask = 0x7FF#32 ∧ i.rowMatch.toNat = i.opcode.id.toNat + i.mode.code.toNat * 2 ^ 8 := by
  cases i with
  | lea m f => exact absurd rfl h
  | _ => exact ⟨rfl, by simp [Instr.rowMatch, Instr.opcode, Instr.mode, Opcode.id, Mode.code]⟩

/-- A word meets a row exactly when it has the row's opcode id and, but for Lea, its mode code. -/
theorem meets_row_iff (w : Word) (i : Instr) : w &&& i.rowMask = i.rowMatch ↔
    opcodeField w = i.opcode.id ∧ (i.opcode ≠ .lea → modeField w = i.mode.code) := by
  simp only [← BitVec.toNat_inj, BitVec.toNat_and, opcodeField_toNat, modeField_toNat]
  have hid := (opcode_id_range i.opcode).2
  have hmode := i.mode.code.isLt
  by_cases hlea : i.opcode = .lea
  · obtain ⟨hmask, hmatch⟩ := row_of_lea hlea
    have hand : w.toNat &&& (0xFF#32).toNat = w.toNat % 2 ^ 8 := Nat.and_two_pow_sub_one_eq_mod w.toNat 8
    rw [hmask, hmatch, hand]
    exact ⟨fun h => ⟨h, fun hne => absurd hlea hne⟩, fun h => h.1⟩
  · obtain ⟨hmask, hmatch⟩ := row_of_not_lea hlea
    have hand : w.toNat &&& (0x7FF#32).toNat = w.toNat % 2 ^ 11 := Nat.and_two_pow_sub_one_eq_mod w.toNat 11
    rw [hmask, hmatch, hand]
    refine ⟨fun h => ⟨by omega, fun _ => by omega⟩, fun ⟨hop, hm⟩ => ?_⟩
    have := hm hlea
    omega

/-- Settles O6: meeting a row is having its opcode id and mode code, which is what the decoder selects by. -/
theorem decodeSelectsTheTableRow : Obligations.DecodeSelectsTheTableRow := by
  refine fun w i => ⟨fun h => ?_, fun h => ?_⟩
  · obtain ⟨op, hop, rfl⟩ := decode_eq_instr_iff.1 h
    rw [meets_row_iff, instrOf_opcode, instrOf_mode, code_modeOfCode]
    exact ⟨hop, fun _ => rfl⟩
  · obtain ⟨hop, hmode⟩ := (meets_row_iff w i).1 h
    refine ⟨_, decode_of_opcodeField hop, instrOf_opcode .., fun hlea => ?_⟩
    rw [instrOf_mode, hmode hlea, modeOfCode_code]

/-! ### The unread bits 13:11 (R53) -/

/-- The mask keeps every bit but 13:11. -/
theorem getLsbD_unreadMask : ∀ j, j < 32 → j < 11 ∨ 14 ≤ j → (0xFFFFC7FF#32).getLsbD j = true := by
  decide

/-- Words that agree outside bits 13:11 have the same slices below and above them. -/
theorem extractLsb'_eq_of_agree {w w' : Word} {start len : Nat} (h : w &&& 0xFFFFC7FF#32 = w' &&& 0xFFFFC7FF#32)
    (hout : start + len ≤ 11 ∨ 14 ≤ start) (hfit : start + len ≤ 32) :
    w.extractLsb' start len = w'.extractLsb' start len := by
  apply BitVec.eq_of_getLsbD_eq
  intro k hk
  have hbit : (w &&& 0xFFFFC7FF#32).getLsbD (start + k) = (w' &&& 0xFFFFC7FF#32).getLsbD (start + k) := by rw [h]
  rw [BitVec.getLsbD_and, BitVec.getLsbD_and, getLsbD_unreadMask _ (by omega) (by omega)] at hbit
  simpa [hk] using hbit

/-- Settles O8: every slice the decoder takes lies outside bits 13:11. -/
theorem unreadBitsDoNotDecode : Obligations.UnreadBitsDoNotDecode := by
  intro w w' i h hd
  have hop : opcodeField w = opcodeField w' := extractLsb'_eq_of_agree h (by decide) (by decide)
  have hmode : modeField w = modeField w' := extractLsb'_eq_of_agree h (by decide) (by decide)
  have hdest : destField w = destField w' := extractLsb'_eq_of_agree h (by decide) (by decide)
  have hsrc : srcField w = srcField w' := extractLsb'_eq_of_agree h (by decide) (by decide)
  have hoffset : offsetField w = offsetField w' := extractLsb'_eq_of_agree h (by decide) (by decide)
  have hsize : sizeField w = sizeField w' := extractLsb'_eq_of_agree h (by decide) (by decide)
  exact decode_instr_congr hop hmode (by rw [fieldsOfWord, fieldsOfWord, hdest, hsrc, hoffset, hsize]) hd

end Sys2Proof
end

section
/-! Writes against reads of every width (spec/20_memory.md R31, R32, R43), and memory as its bytes. -/

namespace Sys2Proof.Machine

/-! ### A write stores the low bytes -/

/-- Truncation keeps the bytes that a write of the size stores. -/
theorem byteOf_trunc (v : Word) {sz : OperandSize} {k : Nat} (hk : k < sz.bytes) :
    byteOf (sz.trunc v) k = byteOf v k := by
  apply BitVec.eq_of_getLsbD_eq
  intro b hb
  have hlow : 8 * k + b < 8 * sz.bytes := by omega
  simp [byteOf, OperandSize.trunc_getLsbD, hlow]

theorem writeSized_trunc (m : Memory) (a : Nat) (v : Word) (sz : OperandSize) :
    m.writeSized a (sz.trunc v) sz = m.writeSized a v sz := by
  have hbyte {k : Nat} (hk : k < sz.bytes) : byteOf (sz.trunc v) k = byteOf v k := byteOf_trunc v hk
  cases sz <;> simp only [Memory.writeSized] <;> simp (disch := decide) only [hbyte]

/-- The in-range case of `Memory.write`. -/
theorem write_inRange {m : Memory} {a : Word} {sz : OperandSize} (v : Word) (h : a.toNat + sz.bytes ≤ m.size) :
    m.write a sz v = some (m.writeSized a.toNat v sz) :=
  if_pos (decide_eq_true h)

/-- Settles O11: in range the memory written is `writeSized`, for the value and for its truncation; out of range the
checked store takes the fault. -/
theorem memWriteStoresLowBytes : Obligations.MemWriteStoresLowBytes := fun s a sz v k =>
  ⟨fun hin => ⟨s.mem.writeSized a.toNat v sz, write_inRange v hin,
      (write_inRange _ hin).trans (congrArg some (writeSized_trunc ..)), withStore_inRange k hin,
      writeSized_holds _ _ _ _, writeSized_outside _ _ _ _⟩,
    fun hout => withStore_outOfRange k hout⟩

/-! ### Mixed widths -/

/-- Byte `k` of a word, zero-extended. -/
theorem byteOf_setWidth (v : Word) (k : Nat) : (byteOf v k).setWidth 32 = v >>> (8 * k) &&& 0xFF#32 := by
  apply BitVec.eq_of_toNat_eq
  have hmask : (v >>> (8 * k)).toNat &&& (0xFF#32).toNat = (v >>> (8 * k)).toNat % 2 ^ 8 :=
    Nat.and_two_pow_sub_one_eq_mod _ 8
  have hbyte := (byteOf v k).isLt
  rw [BitVec.toNat_setWidth, BitVec.toNat_and, hmask, BitVec.toNat_ushiftRight, Nat.shiftRight_eq_div_pow,
    Nat.mod_eq_of_lt (by omega), byteOf_toNat]

/-- The most significant byte needs no mask. -/
theorem byteOf_three_setWidth (v : Word) : (byteOf v 3).setWidth 32 = v >>> 24 := by
  apply BitVec.eq_of_toNat_eq
  have := v.isLt
  simp only [BitVec.toNat_setWidth, byteOf_toNat, BitVec.toNat_ushiftRight, Nat.shiftRight_eq_div_pow]
  omega

theorem halfOfBytes_high (v : Word) : (halfOfBytes (byteOf v 3) (byteOf v 2)).setWidth 32 = v >>> 16 := by
  apply BitVec.eq_of_toNat_eq
  have := v.isLt
  simp only [halfOfBytes, BitVec.toNat_setWidth, append_toNat, byteOf_toNat, BitVec.toNat_ushiftRight,
    Nat.shiftRight_eq_div_pow]
  omega

theorem halfOfBytes_low (v : Word) : (halfOfBytes (byteOf v 1) (byteOf v 0)).setWidth 32 = v &&& 0xFFFF#32 := by
  apply BitVec.eq_of_toNat_eq
  have hmask : v.toNat &&& (0xFFFF#32).toNat = v.toNat % 2 ^ 16 := Nat.and_two_pow_sub_one_eq_mod _ 16
  rw [BitVec.toNat_and, hmask]
  simp only [halfOfBytes, BitVec.toNat_setWidth, append_toNat, byteOf_toNat]
  omega

/-- A sized read of memory that holds a dword, at an address inside it. -/
theorem read_inside_dword {m : Memory} {a : Word} (hsize : m.size ≤ 2 ^ 32) (hin : a.toNat + 4 ≤ m.size) (k : Nat)
    {sz : OperandSize} (hfit : k + sz.bytes ≤ 4) (hk : k < 4) :
    m.read (a + BitVec.ofNat 32 k) sz = some (m.readSized (a.toNat + k) sz) := by
  have haddr : (a + BitVec.ofNat 32 k).toNat = a.toNat + k := by
    rw [BitVec.toNat_add, BitVec.toNat_ofNat]; omega
  rw [read_inRange (by omega), haddr]

/-- Settles O12: the four bytes the write left are the value's, and each read puts its own of them together. -/
theorem mixedWidthReadsSeeBytes : Obligations.MixedWidthReadsSeeBytes := by
  intro m m' a v hsize hwrite
  obtain ⟨hin, hm⟩ | ⟨-, hm⟩ := write_eq m a .dword v <;> rw [hm] at hwrite <;> cases hwrite
  have hbyte := writeSized_holds m a.toNat v .dword
  rw [← writeSized_size m a.toNat v .dword] at hsize hin
  have hread (k : Nat) {sz : OperandSize} := read_inside_dword (sz := sz) hsize hin k
  have h0 := hbyte 0 (by decide)
  have h1 := hbyte 1 (by decide)
  have h2 := hbyte 2 (by decide)
  have h3 := hbyte 3 (by decide)
  simp only [OperandSize.bytes, Nat.reduceSub, Nat.add_zero] at h0 h1 h2 h3
  refine ⟨?_, ?_, ?_, ?_, ?_, ?_, ?_⟩
  · rw [read_inRange hin, readSized_writeSized_dword]
  · refine (add_zero a ▸ hread 0 (by decide) (by decide)).trans ?_
    rw [Nat.add_zero, Memory.readSized, h0, h1, halfOfBytes_high]
  · refine (hread 2 (by decide) (by decide)).trans ?_
    rw [Memory.readSized, h2, h3, halfOfBytes_low]
  · refine (add_zero a ▸ hread 0 (by decide) (by decide)).trans ?_
    rw [Nat.add_zero, Memory.readSized, h0, byteOf_three_setWidth]
  · refine (hread 1 (by decide) (by decide)).trans ?_
    rw [Memory.readSized, h1, byteOf_setWidth]
  · refine (hread 2 (by decide) (by decide)).trans ?_
    rw [Memory.readSized, h2, byteOf_setWidth]
  · refine (hread 3 (by decide) (by decide)).trans ?_
    rw [Memory.readSized, h3, byteOf_setWidth, Nat.mul_zero, BitVec.ushiftRight_zero]

end Sys2Proof.Machine
end

section
/-! Memory in canonical form is its bytes (spec/10_state.md R22), and the reset state (spec/70_reset_and_hazards.md
R140). -/

namespace Sys2Proof.Machine

/-! ### The canonical form -/

/-- An address below every listed one reads as unlisted. -/
theorem readCells_of_lt {cells : List Host.Cell} {a : Nat} (h : ∀ c ∈ cells, a < c.1) :
    readCells cells a = Config.unlistedByte := by
  induction cells with
  | nil => rfl
  | cons c rest ih =>
    have hc : a < c.1 := h c (by simp)
    simp only [readCells, if_neg (Nat.ne_of_gt hc)]
    exact ih fun d hd => h d (by simp [hd])

/-- At strictly rising addresses, the cells listed are the addresses that do not read as unlisted, with their bytes. -/
theorem mem_cells_iff {cells : List Host.Cell} (hrise : cells.Pairwise fun p q => p.1 < q.1)
    (hlisted : ∀ c ∈ cells, c.2 ≠ Config.unlistedByte) (c : Host.Cell) :
    c ∈ cells ↔ readCells cells c.1 = c.2 ∧ c.2 ≠ Config.unlistedByte := by
  induction cells with
  | nil => simp [readCells, eq_comm]
  | cons d rest ih =>
    obtain ⟨hbelow, hrest⟩ := List.pairwise_cons.1 hrise
    have ih := ih hrest fun c hc => hlisted c (by simp [hc])
    obtain ⟨a, v⟩ := c
    obtain ⟨k, b⟩ := d
    by_cases hka : k = a
    · subst hka
      have hnot : (k, v) ∉ rest := fun hmem => Nat.lt_irrefl k (hbelow (k, v) hmem)
      have hb : b ≠ Config.unlistedByte := hlisted (k, b) (by simp)
      simp only [List.mem_cons, hnot, or_false, readCells, if_true, Prod.mk.injEq, true_and]
      exact ⟨fun h => ⟨h.symm, h ▸ hb⟩, fun h => h.1.symm⟩
    · have hak : a ≠ k := fun h => hka h.symm
      simpa only [List.mem_cons, Prod.mk.injEq, hak, false_and, false_or, readCells, if_neg hka] using ih

/-- Settles O13: both lists of cells rise strictly and have the same members, the bytes that are not zero. -/
theorem canonicalMemoriesAreTheirBytes : Obligations.CanonicalMemoriesAreTheirBytes := by
  intro m m' hm hm' hsize hbytes
  obtain ⟨hrise, hcells, -⟩ := hm
  obtain ⟨hrise', hcells', -⟩ := hm'
  have hmem (c : Host.Cell) : c ∈ m.cells ↔ c ∈ m'.cells := by
    rw [mem_cells_iff hrise fun c hc => (hcells c hc).2, mem_cells_iff hrise' fun c hc => (hcells' c hc).2]
    exact and_congr_left' (by rw [show readCells m.cells c.1 = readCells m'.cells c.1 from hbytes c.1])
  have hirrefl : Std.Irrefl fun p q : Host.Cell => p.1 < q.1 := ⟨fun p => Nat.lt_irrefl p.1⟩
  have hasymm : Std.Asymm fun p q : Host.Cell => p.1 < q.1 := ⟨fun _ _ h => Nat.lt_asymm h⟩
  obtain ⟨size, cells⟩ := m
  obtain ⟨size', cells'⟩ := m'
  cases hsize
  exact congrArg (Memory.mk size) (hrise.eq_of_mem_iff hrise' fun c => hmem c)

/-! ### Reset -/

/-- Memory after reset: the image from its first address on, and zero elsewhere. -/
theorem readCells_imageCells (image : List Byte) (a b : Nat) :
    readCells (imageCells a image) (a + b) = image.getD b 0 := by
  induction image generalizing a b with
  | nil => rfl
  | cons v rest ih =>
    have hunlisted : readCells (imageCells (a + 1) rest) (a + 0) = Config.unlistedByte :=
      readCells_of_lt fun c hc => (imageCells_mem hc).1
    cases b with
    | zero =>
      unfold imageCells
      split
      · rename_i hv; rw [hunlisted, hv]; rfl
      · simp [readCells]
    | succ b =>
      have ih := ih (a + 1) b
      rw [Nat.add_assoc, Nat.add_comm 1 b] at ih
      unfold imageCells
      split
      · rw [ih]; simp
      · simp [readCells, ih]

@[simp] theorem replicate_zero_get (r : Reg) : (Vector.replicate 32 (0 : Word)).get r = 0 := by
  simp [Vector.get_eq_getElem]

/-- Settles O53: the requirement is the guard of `launch`, and the bytes are those of `readCells_imageCells`. -/
theorem launchPlacesTheImage : Obligations.LaunchPlacesTheImage := by
  refine fun memSize image pc => ⟨fun h => ?_, fun h => if_neg h⟩
  have hread (a : Nat) : readCells (imageCells 0 image) a = image.getD a 0 := by
    rw [← readCells_imageCells image 0 a, Nat.zero_add]
  exact ⟨_, if_pos h, rfl, rfl, rfl, replicate_zero_get, rfl, rfl, fun a ha => (hread a).trans (by simp [ha]),
    fun a ha => (hread a).trans (by simp [ha])⟩

/-- Settles O52: every field is a literal of `State.reset`. -/
theorem resetLeavesZeros : Obligations.ResetLeavesZeros :=
  ⟨replicate_zero_get, rfl, rfl, rfl, rfl, fun _ => rfl, rfl, rfl⟩

/-- A running state with canonical memory and a zero status register meets the invariant. -/
theorem inv_of_zero_sr {s : State} (hmem : s.mem.wf) (hsr : s.sr = 0) (hr : s.run = .running) : Inv s where
  memory := hmem
  reserved i _ := by rw [hsr]; exact BitVec.getLsbD_zero
  flags := by simp [State.zFlag, hsr]
  cause c hc := by rw [hr] at hc; cases hc

/-- Settles O54: the reset memory lists no cell. -/
theorem invariantHoldsAtReset : Obligations.InvariantHoldsAtReset := inv_of_zero_sr reset_wf rfl rfl

theorem launch_sr {memSize : Nat} {image : List Byte} {pc : Word} {s : State}
    (h : launch memSize image pc = some s) : s.sr = 0 := by
  unfold launch at h
  split at h <;> cases h
  rfl

/-- Settles O55: the image's cells rise strictly, lie inside the capacity and hold no zero. -/
theorem invariantHoldsAtLaunch : Obligations.InvariantHoldsAtLaunch := fun _ _ _ _ h =>
  inv_of_zero_sr (launch_wf h) (launch_sr h) (launch_running h)

end Sys2Proof.Machine
end

section
/-! Move with a pointer adjustment, Lea, Push and Pop (spec/40_move.md R75 to R78, spec/41_lea.md, spec/42_push_pop.md):
each outcome is `exec_completes` or `exec_faults`, and the completed state is one access and the writes after it. -/

namespace Sys2Proof.Machine

variable {s : State}

/-! ### The effect of the shared shapes -/

/-- A store and a write of its pointer, with the flag update. -/
theorem store_writeReg_updateFlags_effect {t : State} {a v : Word} {sz : OperandSize} {r : Reg} {p : Word}
    (hr : s.run = .running) (ht : ((s.storeAt a sz v).writeReg r p).updateFlags = t) :
    HoldsBigEndian t.mem a.toNat sz.bytes v ∧ SameOutside s.mem t.mem a.toNat sz.bytes ∧ OneRegSet s t r p
      ∧ t.last = p ∧ FlagsFrom s t p ∧ t.pc = s.pc ∧ t.run = .running := by
  subst ht
  exact ⟨writeSized_holds _ _ _ _, writeSized_outside _ _ _ _, fun q => writeReg_readReg _ r p q, rfl,
    flagsFrom_updateFlags rfl, rfl, hr⟩

/-- A store and a write of its pointer, without the flag update, with `pc` set to anything. -/
theorem store_writeReg_effect {t : State} {a v : Word} {sz : OperandSize} {r : Reg} {p w : Word}
    (hr : s.run = .running) (ht : ((s.storeAt a sz v).setPc w).writeReg r p = t) :
    HoldsBigEndian t.mem a.toNat sz.bytes v ∧ SameOutside s.mem t.mem a.toNat sz.bytes ∧ OneRegSet s t r p
      ∧ t.last = p ∧ t.sr = s.sr ∧ t.pc = w ∧ t.run = .running := by
  subst ht
  exact ⟨writeSized_holds _ _ _ _, writeSized_outside _ _ _ _, fun q => writeReg_readReg _ r p q, rfl, rfl, rfl, hr⟩

/-- A load into `d` and a write of `p` to its pointer `r` after it, with the flag update. -/
theorem load_writeReg_updateFlags_effect {t : State} {d r : Reg} {v p : Word} (hr : s.run = .running)
    (ht : ((s.writeReg d v).writeReg r p).updateFlags = t) :
    (∀ q, t.readReg q = if q = r then p else if q = d then v else s.readReg q)
      ∧ t.last = p ∧ FlagsFrom s t p ∧ SameMemory s t ∧ t.pc = s.pc ∧ t.run = .running := by
  subst ht
  exact ⟨fun q => by simp, rfl, flagsFrom_updateFlags rfl, ⟨rfl, fun _ => rfl⟩, rfl, hr⟩

/-! ### Move -/

/-- Settles O19: the pointer written is the one that addressed the store, plus the size. -/
theorem moveMemoryDestIncResult : Obligations.MoveMemoryDestIncResult := fun f _ hr =>
  ⟨encodedAs (.moveMemoryDestInc f),
    fun hin => ⟨_, exec_completes hr (boundsFault_inRange hin), store_writeReg_updateFlags_effect hr rfl⟩,
    fun hout => exec_faults hr (boundsFault_outOfRange hout)⟩

/-- Settles O21: as O19, with the size subtracted. -/
theorem moveMemoryDestDecResult : Obligations.MoveMemoryDestDecResult := fun f _ hr =>
  ⟨encodedAs (.moveMemoryDestDec f),
    fun hin => ⟨_, exec_completes hr (boundsFault_inRange hin), store_writeReg_updateFlags_effect hr rfl⟩,
    fun hout => exec_faults hr (boundsFault_outOfRange hout)⟩

/-- Settles O20: the pointer is re-read after the load's write, which gives the loaded value where both are one
register. -/
theorem moveMemorySrcIncResult : Obligations.MoveMemorySrcIncResult := fun f s hr =>
  ⟨encodedAs (.moveMemorySrcInc f),
    fun hin => ⟨_, _, exec_completes hr (boundsFault_inRange hin),
      congrArg (· + BitVec.ofNat 32 f.size.bytes) (writeReg_readReg s f.dest _ f.src),
      load_writeReg_updateFlags_effect hr rfl⟩,
    fun hout => exec_faults hr (boundsFault_outOfRange hout)⟩

/-- Settles O22: as O20, with the size subtracted. -/
theorem moveMemorySrcDecResult : Obligations.MoveMemorySrcDecResult := fun f s hr =>
  ⟨encodedAs (.moveMemorySrcDec f),
    fun hin => ⟨_, _, exec_completes hr (boundsFault_inRange hin),
      congrArg (· - BitVec.ofNat 32 f.size.bytes) (writeReg_readReg s f.dest _ f.src),
      load_writeReg_updateFlags_effect hr rfl⟩,
    fun hout => exec_faults hr (boundsFault_outOfRange hout)⟩

/-! ### Lea -/

/-- Settles O24: the precondition decides first; then the operand word is in memory or not. -/
theorem leaResult : Obligations.LeaResult := by
  refine fun m f s hr => ⟨encodedAs (.lea m f), fun hd hin => ?_,
    fun hd => exec_faults hr (faultOf_lea_data m s hd), fun hd hout =>
      exec_faults hr ((faultOf_lea_address m s hd).trans (boundsFault_outOfRange hout))⟩
  exact ⟨_, exec_completes hr ((faultOf_lea_address m s hd).trans (boundsFault_inRange hin)),
    fun q => writeReg_readReg s.toOperandWord f.dest s.operandWord q, rfl, rfl, ⟨rfl, fun _ => rfl⟩, rfl, hr⟩

/-! ### Push and Pop -/

/-- Settles O25: the one access decides, and the pointer written is the one that addressed it, minus the size. -/
theorem pushAtomicResult : Obligations.PushAtomicResult := fun f _ hr =>
  ⟨encodedAs (.pushAtomic f),
    fun hin => ⟨_, exec_completes hr (boundsFault_inRange hin), store_writeReg_effect hr rfl⟩,
    fun hout => exec_faults hr (boundsFault_outOfRange hout)⟩

/-- Settles O26: the operand word's bounds decide first, then the stack's. -/
theorem pushImmediateResult : Obligations.PushImmediateResult := by
  have hstack {f : Fields} {s : State} (hword : (s.pc + 4).toNat + 4 ≤ s.mem.size) :
      Instr.faultOf (.pushImmediate f) s = boundsFault s.mem (s.readReg stackReg) f.size.bytes := by
    rw [faultOf_pushImmediate, boundsFault_inRange hword]; rfl
  refine fun f s hr => ⟨encodedAs (.pushImmediate f), fun hword hin => ?_, fun hout => ?_, fun hword hout => ?_⟩
  · exact ⟨_, exec_completes hr ((hstack hword).trans (boundsFault_inRange hin)), store_writeReg_effect hr rfl⟩
  · exact exec_faults hr (by rw [faultOf_pushImmediate, boundsFault_outOfRange hout]; rfl)
  · exact exec_faults hr ((hstack hword).trans (boundsFault_outOfRange hout))

/-- Settles O27: `exec_push_unimplemented`, mode by mode. -/
theorem pushMemoryModesHalt : Obligations.PushMemoryModesHalt := fun f _ hr =>
  have hmode (m : Mode) := exec_push_unimplemented (m := m) f hr
  ⟨hmode .memoryDest nofun nofun, hmode .memorySrc nofun nofun, hmode .memoryDestInc nofun nofun,
    hmode .memorySrcInc nofun nofun, hmode .memoryDestDec nofun nofun, hmode .memorySrcDec nofun nofun⟩

/-- Settles O29: `exec_pop_unimplemented`, mode by mode. -/
theorem popOtherModesHalt : Obligations.PopOtherModesHalt := fun f _ hr =>
  have hmode (m : Mode) := exec_pop_unimplemented (m := m) f hr
  ⟨hmode .immediate nofun, hmode .memoryDest nofun, hmode .memorySrc nofun, hmode .memoryDestInc nofun,
    hmode .memorySrcInc nofun, hmode .memoryDestDec nofun, hmode .memorySrcDec nofun⟩

/-- Settles O28: the destination is written last, over the stack pointer where it is A15. -/
theorem popAtomicResult : Obligations.PopAtomicResult := by
  refine fun f s hr => ⟨encodedAs (.popAtomic f), fun hin => ?_,
    fun hout => exec_faults hr (boundsFault_outOfRange hout)⟩
  refine ⟨_, exec_completes hr (boundsFault_inRange hin), fun q => ?_, rfl, rfl, ⟨rfl, fun _ => rfl⟩, rfl, hr⟩
  simp [completed, stackReg]

/-- The bytes just below a pointer, modulo 2^32, are none of those from the pointer on. -/
theorem below_pointer_outside (p : Word) (sz : OperandSize) {k : Nat} (hk : k < sz.bytes) :
    (p - BitVec.ofNat 32 sz.bytes).toNat + k < p.toNat
      ∨ p.toNat + sz.bytes ≤ (p - BitVec.ofNat 32 sz.bytes).toNat + k := by
  have hp := p.isLt
  have hwidth := bytes_width sz
  rw [BitVec.toNat_sub, BitVec.toNat_ofNat]
  omega

/-- Settles O30: the Push writes from the old stack pointer on, the Pop reads just below it. -/
theorem pushThenPopIsNoInverse : Obligations.PushThenPopIsNoInverse := by
  intro f g s hr hsize hdest hpush hpop
  obtain ⟨t, ht, -, ⟨hcapacity, hsame⟩, hregs, -, -, -, htr⟩ := (pushAtomicResult f s hr).2.1 hpush
  have hsp : t.readReg 31 = s.readReg 31 - BitVec.ofNat 32 f.size.bytes := (hregs 31).trans (if_pos rfl)
  have hin : (t.readReg 31).toNat + g.size.bytes ≤ t.mem.size := by rwa [hsp, hsize, hcapacity]
  obtain ⟨u, hu, hregs', -⟩ := (popAtomicResult g t htr).2.1 hin
  refine ⟨t, u, ht, hu, hsp, ?_, ?_⟩
  · rw [hregs' 31, if_neg hdest.symm, if_pos rfl, hsp, hsize, BitVec.sub_add_cancel]
  · rw [hregs' g.dest, if_pos rfl, hsp, hsize]
    exact readSized_congr fun k hk => hsame _ (below_pointer_outside _ _ hk)

end Sys2Proof.Machine
end

section
/-! The fault of a cycle and what it leaves (spec/60_exceptions.md R124, R128), and the closing advance of `pc`
(spec/44_instruction_cycle.md R110, R112). -/

namespace Sys2Proof.Machine

/-- Settles O37: `exec_eq_faultOr`, by its two cases. -/
theorem execFaultsExactlyAsTabled : Obligations.ExecFaultsExactlyAsTabled := fun i s hr =>
  ⟨fun _ hc => exec_faults hr hc, fun hnone => ⟨_, exec_completes hr hnone, (completed_run s i).trans hr⟩⟩

/-- A cycle whose word decodes to `i` is `exec i` and the incrementer. -/
theorem step_of_exec {s t : State} {i : Instr} (hr : s.run = .running) (hf : s.canFetch)
    (hd : decode s.fetchedWord = .instr i) (h : exec i s = .next t) : step s = .next t.advancePc := by
  rw [step_running hr hf, hd]
  exact congrArg advance h

/-- Settles O44: the incrementer acts on a running state alone. -/
theorem stepRunsTheDecodedInstruction : Obligations.StepRunsTheDecodedInstruction := by
  intro s t i hr hf hd h
  rw [step_of_exec hr hf hd h]
  cases ht : t.run with
  | running => rw [if_pos rfl, advancePc_of_running t ht]
  | halted c => rw [if_neg nofun, advancePc_of_halted t ht]

/-- Settles O38: the fetch and the decoder come before the instruction's own fault. -/
theorem stepFaultOrder : Obligations.StepFaultOrder := by
  refine fun s hr => ⟨fun hf => step_fetchOutOfRange hr (Nat.not_le.1 hf), fun hf w hd => step_unrecognized hr hf hd,
    fun hf i hd => ⟨fun c hc => step_of_exec hr hf hd (exec_faults hr hc), fun hnone => ?_⟩⟩
  have hrun : (completed s i).run = .running := (completed_run s i).trans hr
  exact ⟨_, hr, step_of_exec hr hf hd (exec_completes hr hnone), (advancePc_run _).trans hrun⟩

/-- An instruction that leaves a running core halted leaves it with a cause and nothing else changed. -/
theorem exec_halts_precisely {i : Instr} {s t : State} (hr : s.run = .running) (ht : t.run ≠ .running)
    (h : exec i s = .next t) : ∃ c, t = s.haltedWith c := by
  rcases exec_cases h with ⟨c, hc, -⟩ | ⟨-, c, -, rfl⟩ | ⟨-, -, rfl⟩
  · rw [hr] at hc; cases hc
  · exact ⟨c, rfl⟩
  · exact absurd ((completed_run s i).trans hr) ht

/-- Settles O39: by the end the cycle, the marker or the instruction came to. -/
theorem faultsArePrecise : Obligations.FaultsArePrecise := by
  rintro s t hr ht (hstep | ⟨d, hd⟩)
  · rcases step_inversion hstep with ⟨⟨c, hc⟩, -⟩ | ⟨-, -, rfl⟩ | ⟨-, -, -, rfl⟩ | ⟨-, -, i, u, -, hu, rfl⟩
    · rw [hr] at hc; cases hc
    · exact ⟨_, rfl⟩
    · exact ⟨_, rfl⟩
    · obtain ⟨c, rfl⟩ := exec_halts_precisely hr (fun hur => ht ((advancePc_run u).trans hur)) hu
      exact ⟨c, rfl⟩
  · cases d with
    | instr i => exact exec_halts_precisely hr ht hd
    | unrecognized w =>
      rw [execute_unrecognized w hr] at hd
      cases hd
      exact ⟨_, rfl⟩

/-- The instructions with an operand word (R62). -/
theorem hasOperandWord_iff (i : Instr) : i.hasOperandWord = true ↔
    i.opcode = .lea ∨ (i.opcode = .move ∧ i.mode = .immediate) ∨ (i.opcode = .push ∧ i.mode = .immediate) := by
  cases i <;> simp [Instr.hasOperandWord, Instr.opcode, Instr.mode]

/-- An instruction that leaves the core running met no fault. -/
theorem exec_running_cases {i : Instr} {s t : State} (h : exec i s = .next t) (ht : t.run = .running) :
    s.run = .running ∧ i.faultOf s = none ∧ t = completed s i := by
  rcases exec_cases h with ⟨c, hc, rfl⟩ | ⟨-, c, -, rfl⟩ | hdone
  · rw [ht] at hc; cases hc
  · cases ht
  · exact hdone

/-- Settles O45: `execute` moves `pc` onto the operand word where there is one, the cycle then past the last word. -/
theorem pcMovesByTheInstructionLength : Obligations.PcMovesByTheInstructionLength := by
  intro i s t hr ht
  simp only [← hasOperandWord_iff]
  refine ⟨fun h => ?_, fun h hd => ?_⟩
  · obtain ⟨-, -, rfl⟩ := exec_running_cases h ht
    exact completed_pc s i
  · obtain ⟨-, j, hj, -, rfl⟩ := completesStep_cases ⟨hr, h, ht⟩
    rw [hd] at hj
    cases hj
    rw [setPc_pc, completed_pc, add_assoc]
    cases i.hasOperandWord <;> rfl

end Sys2Proof.Machine
end

section
/-! Frames: what a next state leaves unchanged, whether the instruction completed or faulted (spec/10_state.md R12,
R20). A fault, and a halted core, leave everything but the run state. -/

namespace Sys2Proof.Machine

variable {i : Instr} {s t : State}

theorem exec_readReg (h : exec i s = .next t) {q : Reg} (hq : q ∉ i.writes) : t.readReg q = s.readReg q := by
  rcases exec_stopped_or_completed h with ⟨r, rfl⟩ | rfl
  · rfl
  · exact completed_readReg s i hq

theorem exec_sr (h : exec i s = .next t) (hop : i.opcode ≠ .move) : t.sr = s.sr := by
  rcases exec_stopped_or_completed h with ⟨r, rfl⟩ | rfl
  · rfl
  · exact completed_sr s hop

theorem exec_reserved (h : exec i s = .next t) {b : Nat} (hb : 2 ≤ b) : t.sr.getLsbD b = s.sr.getLsbD b := by
  rcases exec_stopped_or_completed h with ⟨r, rfl⟩ | rfl
  · rfl
  · exact completed_reserved s i hb

theorem exec_pc (h : exec i s = .next t) (hw : i.hasOperandWord = false) : t.pc = s.pc := by
  rcases exec_stopped_or_completed h with ⟨r, rfl⟩ | rfl
  · rfl
  · rw [completed_pc, hw]
    exact add_zero s.pc

/-- An instruction whose completed state has the same memory never changes a byte. -/
theorem exec_sameMemory (h : exec i s = .next t) (hmem : (completed s i).mem = s.mem) : SameMemory s t := by
  rcases exec_stopped_or_completed h with ⟨r, rfl⟩ | rfl
  · exact ⟨rfl, fun _ => rfl⟩
  · exact ⟨congrArg Memory.size hmem, fun b => congrArg (Memory.readByte · b) hmem⟩

/-- No byte outside the instruction's one data access changes. -/
theorem exec_sameOutside (h : exec i s = .next t) {a : Word} (ha : Instr.dataAddr i s = some a) :
    SameOutside s.mem t.mem a.toNat i.fields.size.bytes := by
  rcases exec_stopped_or_completed h with ⟨r, rfl⟩ | rfl
  · exact ⟨rfl, fun _ _ => rfl⟩
  · rcases completed_mem s i with hsame | ⟨a', v, ha', hwritten⟩
    · exact hsame ▸ ⟨rfl, fun _ _ => rfl⟩
    · rw [ha] at ha'
      cases ha'
      exact hwritten ▸ writeSized_outside _ _ _ _

/-- Settles O31: the destination is the one register written, and no access stores. -/
theorem registerMoveFrame : Obligations.RegisterMoveFrame := by
  rintro f s t i (rfl | rfl | rfl) h <;>
    exact ⟨fun q hq => exec_readReg h (mt List.mem_singleton.1 hq), exec_sameMemory h rfl,
      fun b hb => exec_reserved h hb⟩

/-- Settles O32: the registers written are the destination and the pointer, and the access loads. -/
theorem pointerLoadFrame : Obligations.PointerLoadFrame := by
  have hnot {q d r : Reg} (hd : q ≠ d) (hr : q ≠ r) : q ∉ [d, r] := by simp [hd, hr]
  rintro f s t i (rfl | rfl) h <;>
    exact ⟨fun q hd hr => exec_readReg h (hnot hd hr), exec_sameMemory h rfl, fun b hb => exec_reserved h hb,
      exec_pc h rfl⟩

/-- Move MemoryDest writes no register, so it leaves the cache too (R73). -/
theorem exec_moveMemoryDest_registers {f : Fields} (h : exec (.moveMemoryDest f) s = .next t) :
    SameRegs s t ∧ t.last = s.last := by
  refine ⟨fun q => exec_readReg h List.not_mem_nil, ?_⟩
  rcases exec_stopped_or_completed h with ⟨r, rfl⟩ | rfl <;> rfl

/-- Settles O33: the access stores at the destination register's content, the one register the last two write. -/
theorem storingMoveFrame : Obligations.StoringMoveFrame := by
  rintro f s t i (rfl | rfl | rfl) h
  · obtain ⟨hregs, hlast⟩ := exec_moveMemoryDest_registers h
    exact ⟨exec_sameOutside h rfl, fun q _ => hregs q, fun _ => ⟨hregs f.dest, hlast⟩, fun b hb => exec_reserved h hb,
      exec_pc h rfl⟩
  all_goals
    exact ⟨exec_sameOutside h rfl, fun q hq => exec_readReg h (mt List.mem_singleton.1 hq), nofun,
      fun b hb => exec_reserved h hb, exec_pc h rfl⟩

/-- Settles O34: it makes no data access and writes its destination. -/
theorem leaFrame : Obligations.LeaFrame := fun _ _ _ _ h =>
  ⟨fun _ hq => exec_readReg h (mt List.mem_singleton.1 hq), exec_sr h nofun, exec_sameMemory h rfl⟩

/-- Settles O35: the access is at A15, the one register written. -/
theorem pushFrame : Obligations.PushFrame := by
  rintro f s t i (rfl | rfl) h <;>
    exact ⟨fun q hq => exec_readReg h (mt List.mem_singleton.1 hq), exec_sr h nofun, exec_sameOutside h rfl⟩

/-- Settles O36: the registers written are A15 and the destination, and the access loads. -/
theorem popFrame : Obligations.PopFrame := by
  refine fun f s t h => ⟨fun q hsp hd => exec_readReg h ?_, exec_sr h nofun, exec_sameMemory h rfl, exec_pc h rfl⟩
  show q ∉ [31, f.dest]
  simp [hsp, hd]

/-- Settles O46: a fault and every other instruction leave the status register; a Move that completes ends with the flag
update. -/
theorem onlyMoveWritesFlags : Obligations.OnlyMoveWritesFlags := by
  refine fun i s t h => ⟨exec_sr h, fun ht => ?_, fun ht hop => ?_⟩
  · rcases exec_cases h with ⟨-, -, rfl⟩ | ⟨-, c, -, rfl⟩ | ⟨hr, -, rfl⟩
    · rfl
    · rfl
    · exact absurd ((completed_run s i).trans hr) ht
  · obtain ⟨-, -, rfl⟩ := exec_running_cases h ht
    exact completed_flagsFrom s hop

/-- Settles O47: the completed state's writes, and the cache after the last of them. -/
theorem registersWrittenAsTabled : Obligations.RegistersWrittenAsTabled := by
  intro i s t h _ ht
  obtain ⟨-, -, rfl⟩ := exec_running_cases h ht
  refine ⟨fun q hq => completed_readReg s i hq, ?_⟩
  split
  · exact completed_last s ‹_›
  · exact completed_last_of_no_writes s ‹_›

end Sys2Proof.Machine
end

section
/-! What an outcome depends on: runs of two states that differ in a part no rule reads (spec/10_state.md R12, R17,
R20), and two instructions that differ in fields no rule uses (spec/30_encoding.md R65). -/

namespace Sys2Proof.Machine

/-! ### Two states side by side -/

/-- The fault of an instruction is read from memory, `pc` and the address of its access. -/
theorem faultOf_congr {i : Instr} {s s' : State} (hmem : s'.mem = s.mem) (hpc : s'.pc = s.pc)
    (haddr : Instr.dataAddr i s' = Instr.dataAddr i s) : i.faultOf s' = i.faultOf s := by
  simp only [Instr.faultOf, hmem, hpc, haddr]

/-- The address of an access is read from registers. -/
theorem dataAddr_congr {s s' : State} (h : SameRegs s s') (i : Instr) : Instr.dataAddr i s' = Instr.dataAddr i s := by
  simp only [Instr.dataAddr, h _]

/-- `execute` keeps a relation of two states that meet the same faults, when completing and halting keep it. -/
theorem exec_simulates {R : State → State → Prop} {i : Instr} {s s' t : State} (hrun : s'.run = s.run)
    (hfault : i.faultOf s' = i.faultOf s) (hsame : R s s') (hhalt : ∀ c, R (s.haltedWith c) (s'.haltedWith c))
    (hdone : R (completed s i) (completed s' i)) (h : exec i s = .next t) : ∃ t', exec i s' = .next t' ∧ R t t' := by
  rcases exec_cases h with ⟨c, hc, rfl⟩ | ⟨hr, c, hc, rfl⟩ | ⟨hr, hnone, rfl⟩
  · exact ⟨s', exec_halted (hrun.trans hc) i, hsame⟩
  · exact ⟨_, exec_faults (hrun.trans hr) (hfault.trans hc), hhalt c⟩
  · exact ⟨_, exec_completes (hrun.trans hr) (hfault.trans hnone), hdone⟩

/-- A cycle keeps a relation of two states that fetch the same word, when `execute`, halting and the incrementer keep
it. -/
theorem step_simulates {R : State → State → Prop} {s s' t : State} (hrun : s'.run = s.run) (hmem : s'.mem = s.mem)
    (hpc : s'.pc = s.pc) (hregs : SameRegs s s') (hsame : R s s') (hhalt : ∀ c, R (s.haltedWith c) (s'.haltedWith c))
    (hdone : ∀ i, R (completed s i) (completed s' i)) (hadvance : ∀ u u', R u u' → R u.advancePc u'.advancePc)
    (h : step s = .next t) : ∃ t', step s' = .next t' ∧ R t t' := by
  have hcan : s'.canFetch ↔ s.canFetch := by simp only [State.canFetch, hmem, hpc]
  have hword : s'.fetchedWord = s.fetchedWord := by simp only [State.fetchedWord, hmem, hpc]
  rcases step_inversion h with ⟨⟨c, hc⟩, rfl⟩ | ⟨hr, hf, rfl⟩ | ⟨hr, hf, hd, rfl⟩ | ⟨hr, hf, i, u, hd, hu, rfl⟩
  · exact ⟨s', step_halted (hrun.trans hc), hsame⟩
  · refine ⟨_, step_fetchOutOfRange (hrun.trans hr) (Nat.not_le.1 (mt hcan.1 hf)), ?_⟩
    rw [hpc]; exact hhalt _
  · refine ⟨_, step_unrecognized (hrun.trans hr) (hcan.2 hf) (hword ▸ hd), ?_⟩
    rw [hword]; exact hhalt _
  · have hfault := faultOf_congr hmem hpc (dataAddr_congr hregs i)
    obtain ⟨u', hu', hR⟩ := exec_simulates hrun hfault hsame hhalt (hdone i) hu
    exact ⟨_, step_of_exec (hrun.trans hr) (hcan.2 hf) (hword ▸ hd) hu', hadvance u u' hR⟩

/-! ### The status register and the last-written cache -/

/-- Equal but for the status register. -/
def SameButSr (s s' : State) : Prop := ∃ v, s' = s.withSr v

/-- Equal but for the last-written cache and the status register. -/
def SameButLastSr (s s' : State) : Prop := ∃ l v, s' = (s.withLast l).withSr v

theorem completed_withSr (s : State) (v : Word) (i : Instr) : SameButSr (completed s i) (completed (s.withSr v) i) := by
  cases i <;> exact ⟨_, rfl⟩

theorem completed_withLast (s : State) (v : Word) (i : Instr) :
    SameButLastSr (completed s i) (completed (s.withLast v) i) := by
  cases i with
  | pushMemoryDest | pushMemorySrc | pushMemoryDestInc | pushMemorySrcInc | pushMemoryDestDec | pushMemorySrcDec
  | popImmediate | popMemoryDest | popMemorySrc | popMemoryDestInc | popMemorySrcInc | popMemoryDestDec
  | popMemorySrcDec => exact ⟨v, s.sr, rfl⟩
  | _ => exact ⟨_, _, rfl⟩

theorem advancePc_withSr (s : State) (v : Word) : (s.withSr v).advancePc = s.advancePc.withSr v := by
  unfold State.advancePc
  rw [withSr_run]
  cases s.run <;> rfl

theorem advancePc_withLast (s : State) (v : Word) : (s.withLast v).advancePc = s.advancePc.withLast v := by
  unfold State.advancePc
  rw [withLast_run]
  cases s.run <;> rfl

/-- Settles O49: no check and no write but the flag update's own takes the status register. -/
theorem statusRegisterIsNeverRead : Obligations.StatusRegisterIsNeverRead := by
  intro s t v h
  have hsim := step_simulates (R := SameButSr) (s := s) (s' := s.withSr v) rfl rfl rfl (fun _ => rfl) ⟨v, rfl⟩
    (fun _ => ⟨v, rfl⟩) (completed_withSr s v) ?_ h
  · obtain ⟨_, ht, v', rfl⟩ := hsim
    exact ⟨v', ht⟩
  · rintro u _ ⟨w, rfl⟩
    exact ⟨w, advancePc_withSr u w⟩

/-- Settles O50: the cache reaches the flag update, which writes the status register, and nothing else. -/
theorem lastIsReadByTheFlagsOnly : Obligations.LastIsReadByTheFlagsOnly := by
  intro s t v h
  have hsim := step_simulates (R := SameButLastSr) (s := s) (s' := s.withLast v) rfl rfl rfl (fun _ => rfl)
    ⟨v, s.sr, rfl⟩ (fun _ => ⟨v, s.sr, rfl⟩) (completed_withLast s v) ?_ h
  · obtain ⟨_, ht, l', v', rfl⟩ := hsim
    exact ⟨l', v', ht⟩
  · rintro u _ ⟨l, w, rfl⟩
    exact ⟨l, w, by rw [advancePc_withSr, advancePc_withLast]⟩

/-! ### A register that is neither read nor written -/

section

variable {s : State} {q r : Reg} (v w : Word)

theorem pokeReg_readReg (h : q ≠ r) : (s.pokeReg q v).readReg r = s.readReg r :=
  (writeReg_readReg s q v r).trans (if_neg h.symm)

theorem writeReg_pokeReg (h : q ≠ r) : (s.pokeReg q v).writeReg r w = (s.writeReg r w).pokeReg q v := by
  have hne : q.val ≠ r.val := fun e => h (Fin.ext e)
  simp only [State.pokeReg, State.writeReg, Vector.set_comm _ _ hne]

theorem incReg_pokeReg (h : q ≠ r) (sz : OperandSize) :
    (s.pokeReg q v).incReg r sz = (s.incReg r sz).pokeReg q v := by
  rw [State.incReg, pokeReg_readReg v h]
  exact writeReg_pokeReg v _ h

theorem decReg_pokeReg (h : q ≠ r) (sz : OperandSize) :
    (s.pokeReg q v).decReg r sz = (s.decReg r sz).pokeReg q v := by
  rw [State.decReg, pokeReg_readReg v h]
  exact writeReg_pokeReg v _ h

@[simp] theorem pokeReg_mem : (s.pokeReg q v).mem = s.mem := rfl

theorem updateFlags_pokeReg : (s.pokeReg q v).updateFlags = s.updateFlags.pokeReg q v := rfl

theorem storeAt_pokeReg (a : Word) (sz : OperandSize) :
    (s.pokeReg q v).storeAt a sz w = (s.storeAt a sz w).pokeReg q v := rfl

theorem toOperandWord_pokeReg : (s.pokeReg q v).toOperandWord = s.toOperandWord.pokeReg q v := rfl

theorem operandWord_pokeReg : (s.pokeReg q v).operandWord = s.operandWord := rfl

end

/-- The address of an access comes from registers the instruction reads. -/
theorem dataAddr_pokeReg {i : Instr} {q : Reg} (hq : q ∉ i.reads) (s : State) (v : Word) :
    Instr.dataAddr i (s.pokeReg q v) = Instr.dataAddr i s := by
  cases i <;> simp_all [Instr.reads, Instr.dataAddr, Instr.opcode, Instr.mode, Instr.fields, pokeReg_readReg]

/-- The reads of the completed state are of registers the instruction reads, and its writes, of registers it writes,
commute with the poke. -/
theorem completed_pokeReg {i : Instr} {q : Reg} (hreads : q ∉ i.reads) (hwrites : q ∉ i.writes) (s : State) (v : Word) :
    completed (s.pokeReg q v) i = (completed s i).pokeReg q v := by
  cases i <;> simp_all [completed, Instr.reads, Instr.writes, Instr.opcode, Instr.mode, Instr.fields, stackReg,
    pokeReg_readReg, writeReg_pokeReg, incReg_pokeReg, decReg_pokeReg, updateFlags_pokeReg, storeAt_pokeReg,
    toOperandWord_pokeReg, operandWord_pokeReg]

/-- Settles O48. -/
theorem registersReadAsTabled : Obligations.RegistersReadAsTabled := by
  intro i s t q v hreads hwrites h
  obtain ⟨_, ht, rfl⟩ := exec_simulates (R := fun u u' => u' = u.pokeReg q v) (s := s) (s' := s.pokeReg q v) rfl
    (faultOf_congr rfl rfl (dataAddr_pokeReg hreads s v)) rfl (fun _ => rfl) (completed_pokeReg hreads hwrites s v) h
  exact ht

/-! ### Fields that are not used -/

/-- Two instructions of one row, by its opcode and mode, whose used fields agree. -/
theorem exec_instrOf_congr {op : Opcode} {m m' : Mode} {f g : Fields} (hmode : op ≠ .lea → m = m')
    (hdest : (instrOf op m f).usesDest = true → f.dest = g.dest)
    (hsrc : (instrOf op m f).usesSrc = true → f.src = g.src)
    (hsize : (instrOf op m f).usesSize = true → f.size = g.size) (s : State) :
    exec (instrOf op m f) s = exec (instrOf op m' g) s := by
  obtain ⟨d, r, o, z⟩ := f
  obtain ⟨d', r', o', z'⟩ := g
  cases op with
  | lea => obtain rfl : d = d' := hdest rfl; rfl
  | move =>
    obtain rfl := hmode nofun
    obtain rfl : d = d' := hdest (by cases m <;> rfl)
    cases m with
    | immediate => rfl
    | _ => obtain rfl : r = r' := hsrc rfl; obtain rfl : z = z' := hsize rfl; rfl
  | push =>
    obtain rfl := hmode nofun
    cases m with
    | atomic => obtain rfl : r = r' := hsrc rfl; obtain rfl : z = z' := hsize rfl; rfl
    | immediate => obtain rfl : z = z' := hsize rfl; rfl
    | _ => rfl
  | pop =>
    obtain rfl := hmode nofun
    cases m with
    | atomic => obtain rfl : d = d' := hdest rfl; obtain rfl : z = z' := hsize rfl; rfl
    | _ => rfl

/-- Settles O9: an instruction is `instrOf` of its opcode, mode and fields. -/
theorem ignoredFieldsHaveNoEffect : Obligations.IgnoredFieldsHaveNoEffect := by
  intro i j s hop hmode hdest hsrc hsize
  have h := exec_instrOf_congr (m := i.mode) (m' := j.mode) (f := i.fields) (g := j.fields) hmode
  rw [instrOf_self, hop, instrOf_self] at h
  exact h hdest hsrc hsize s

end Sys2Proof.Machine
end

section
/-! Words placed in memory and fetched from it (spec/20_memory.md R40), and a first Push after reset
(spec/70_reset_and_hazards.md R142). -/

namespace Sys2Proof.Machine

/-- A dword stored where a running core fetches next runs next. -/
theorem step_of_stored_dword {s : State} {m : Memory} {w : Word} (hr : s.run = .running)
    (hmem : s.mem = m.writeSized s.pc.toNat w .dword) (hf : s.canFetch) : step s = advance (execute (decode w) s) := by
  have hword : s.fetchedWord = w := by rw [State.fetchedWord, hmem, readSized_writeSized_dword]
  rw [step_running hr hf, hword]

/-- Settles O51: a Dword store in range leaves the whole register at the address, where the next cycle fetches. -/
theorem storeIsSeenByFetch : Obligations.StoreIsSeenByFetch := by
  rintro ⟨d, r, o, z⟩ s t hr hz hin h
  obtain rfl : z = .dword := hz
  rw [exec_completes (i := .moveMemoryDest _) hr (boundsFault_inRange hin)] at h
  cases h
  refine step_of_stored_dword hr rfl ?_
  show (s.readReg d).toNat + 4 ≤ (s.mem.writeSized _ _ _).size
  rwa [writeSized_size]

theorem placeWord_size (m : Memory) (a v : Word) : (m.placeWord a v).size = m.size := by
  unfold Memory.placeWord
  rcases write_eq m a .dword v with ⟨-, h⟩ | ⟨-, h⟩ <;> rw [h]
  exact writeSized_size ..

theorem placeWord_inRange {m : Memory} {a : Word} (v : Word) (h : a.toNat + 4 ≤ m.size) :
    m.placeWord a v = m.writeSized a.toNat v .dword := by
  rw [Memory.placeWord, write_inRange (sz := .dword) v h]

/-- A table word without an operand word. -/
theorem tableWords_toNat (w : Word) : (tableWords 32 w.toNat).1 = w := by
  apply BitVec.eq_of_toNat_eq
  rw [tableWords, BitVec.toNat_ofNat, Nat.mod_mod, Nat.mod_eq_of_lt w.isLt]

theorem decodeTableWord_encode (i : Instr) : decodeTableWord 32 (encode i).toNat = some i := by
  have hbytes := decodeBytes_encodeBytes i (bytesOfWord (tableWords 32 (encode i).toNat).2)
  rw [encodeBytes] at hbytes
  rw [decodeTableWord, tableWords_toNat, hbytes]

/-- Settles O58: the word is placed last, at `pc`, so the next cycle fetches it whatever stands at `pc + 4`. -/
theorem placedWordRunsNext : Obligations.PlacedWordRunsNext := by
  refine fun i s hr hf => ⟨decodeTableWord_encode i, ?_⟩
  have hin : s.pc.toNat + 4 ≤ (s.mem.placeWord (s.pc + 4) (tableWords 32 (encode i).toNat).2).size := by
    rwa [placeWord_size]
  have hmem : (s.withFetchWord 32 (encode i).toNat).mem = _ :=
    (placeWord_inRange _ hin).trans (by rw [tableWords_toNat])
  have hfetch : (s.withFetchWord 32 (encode i).toNat).canFetch := by
    show s.pc.toNat + 4 ≤ Memory.size _
    rw [hmem, writeSized_size]
    exact hin
  rw [step_of_stored_dword (s := s.withFetchWord 32 (encode i).toNat) hr hmem hfetch, decode_encode]
  rfl

theorem reset_push_inRange : (State.reset.readReg 31).toNat + OperandSize.dword.bytes ≤ State.reset.mem.size := by
  decide

/-- Settles O59: A15 is 0 at reset, so the Push's pointer wraps, past the default capacity. -/
theorem firstPushAtResetWraps : Obligations.FirstPushAtResetWraps := by
  rintro ⟨d, r, o, z⟩ g hz
  obtain rfl : z = .dword := hz
  obtain ⟨t, ht, -, houtside, hregs, -, -, -, htr⟩ :=
    (pushAtomicResult ⟨d, r, o, .dword⟩ State.reset rfl).2.1 reset_push_inRange
  have hsp : t.readReg 31 = 0xFFFFFFFC#32 := hregs 31
  have hsize : t.mem.size = 134217728 := houtside.1
  refine ⟨t, ht, htr, hsp, houtside, hsp ▸ exec_faults htr (boundsFault_outOfRange ?_)⟩
  show t.mem.size < (t.readReg 31).toNat + g.size.bytes
  rw [hsp, hsize, BitVec.toNat_ofNat]
  omega

end Sys2Proof.Machine
end
